-- ==== Sys2Proof/Word.lean ====
section
/-! DEFINITION. The word types of the block: bytes, register-space addresses, command words. -/

namespace Sys2Proof

/-- A register byte or a mixer value, bit 7 the most significant (rules R9, R11). -/
abbrev Byte := BitVec 8

/-- A register-space address, 16 bits (rule R50). -/
abbrev Addr := BitVec 16

/-- A command word, 32 bits (rule R80). -/
abbrev Word := BitVec 32

end Sys2Proof
end

