-- ==== Sys2Proof/Config.lean ====
section
/-! DEFINITION. The parameters of the block (rule R8) and the model's free values (rules R12, R183, R186). -/

namespace Sys2Proof

/-- The generator mode tag `GEN_MODE` (rule R28). -/
inductive GenMode where
  | analog
  | motion
deriving DecidableEq, Repr

/-- A guard parameter of `HIGH` and `LOW`, `P_GUARD_PORT` or `P_GUARD_DDR` (rules R8, R138). -/
inductive Guard where
  | whole
  | bit
deriving DecidableEq, Repr

/-- What a read of PINx returns, `P_PIN_READ` (rules R8, R57). -/
inductive PinRead where
  | outputState
  | padDraw
deriving DecidableEq, Repr

/-- What reset leaves in the 22 register bytes, `P_RESET` (rules R8, R33). -/
inductive ResetRule where
  | any
  | zero
deriving DecidableEq, Repr

/-- The parameters of one block instance (rule R8).  `State` carries them and no step changes them
(log entry 5), so a statement about every state is a statement about every setting.
`sensorExtraBits` is `W_SENSOR` less 8: every value of the field is a width of 8 bits or more. -/
structure Config where
  genMode         : GenMode
  guardPort       : Guard
  guardDdr        : Guard
  pinRead         : PinRead
  resetRule       : ResetRule
  sensorExtraBits : Nat
  dpsScale        : Int
  gRange          : Int
deriving DecidableEq, Repr

/-- `W_SENSOR`, the width of a sensor integer, 8 bits or more (rule R8). -/
def Config.wSensor (c : Config) : Nat := 8 + c.sensorExtraBits

/-- The defaults of rule R8.  `GEN_MODE` has none and is Motion here (DESIGN CHOICE, log entry 6);
the width, `dpsScale` and `gRange` are open (DESIGN CHOICE, log entry 7).  Unsafe for a claim about
this one setting, safe for a claim about every setting. -/
def Config.default : Config where
  genMode := .motion
  guardPort := .whole
  guardDdr := .whole
  pinRead := .outputState
  resetRule := .any
  sensorExtraBits := 0
  dpsScale := 0
  gRange := 0

/-- `draw8()` of rules R12, R57 and R186: the byte of the `k`-th draw.  It has no body: nothing is known of
it (DESIGN CHOICE, log entry 9; safe for a claim about one run). -/
opaque Config.freeByte : Nat → Byte

/-- A sensor word the host did not supply (rule R183 puts no condition on it).  It has no body: nothing is
known of it (DESIGN CHOICE, log entry 8; safe for a claim about one run). -/
opaque Config.freeSensorWord : Nat → Int

end Sys2Proof
end

