-- ==== Sys2Proof/Syntax.lean ====
section
/-! DEFINITION. The commands, one constructor per row of spec/opcode_table.json. -/

namespace Sys2Proof

/-- The closed enumeration of the eleven ports; there is no port I (rule R21). -/
inductive PortName where
  | a | b | c | d | e | f | g | h | j | k | l
deriving DecidableEq, Repr

/-- The direction a pin is set to (rules R15, R84). -/
inductive IOMode where
  | input
  | output
deriving DecidableEq, Repr

/-- The commands of rule R81.  Ports are names, so a reserved port code cannot be written; an index or a
rotate count is the byte of its field, and `Instr.wf` says which bytes are legal. -/
inductive Instr where
  /-- `ACQ p` (rule R130). -/
  | acq (p : PortName)
  /-- `PIN p, i` (rule R131). -/
  | pin (p : PortName) (idx : Byte)
  /-- `MODE p, i, m` (rule R132). -/
  | mode (p : PortName) (idx : Byte) (m : IOMode)
  /-- `OUT p, i`, a second spelling of `MODE p, i, Output` (rules R92, R133). -/
  | out (p : PortName) (idx : Byte)
  /-- `IN p, i`, a second spelling of `MODE p, i, Input` (rules R92, R134). -/
  | inp (p : PortName) (idx : Byte)
  /-- `TGL p, i` (rule R135). -/
  | tgl (p : PortName) (idx : Byte)
  /-- `HIGH p, i` (rule R136). -/
  | high (p : PortName) (idx : Byte)
  /-- `LOW p, i` (rule R137). -/
  | low (p : PortName) (idx : Byte)
  /-- `RD a` (rule R110). -/
  | rd (addr : Addr)
  /-- `WR a, v` (rule R111). -/
  | wr (addr : Addr) (data : Byte)
  /-- `ROT b, n` (rule R161). -/
  | rot (b n : Byte)
  /-- `XOR a, b` (rule R162). -/
  | xor (a b : Byte)
  /-- `XSH a` (rule R163). -/
  | xsh (a : Byte)
  /-- `PSHL v, c` (rule R164). -/
  | pshl (val change : Byte)
  /-- `PSHR v, c` (rule R165). -/
  | pshr (val change : Byte)
  /-- `GENM` (rule R181). -/
  | genm
  /-- `GENA` (rule R184). -/
  | gena
deriving DecidableEq, Repr

end Sys2Proof
end

