-- ==== Sys2Proof/WellFormed.lean ====
section
/-! DEFINITION. Which terms of `Instr` are commands the spec gives a word (the value constraints of rule R81). -/

namespace Sys2Proof

/-- The index of `MODE`, `OUT`, `IN` and `TGL` is 0 to 7 and the count of `ROT` is 1 to 7; every other operand
is any value of its field (rules R81, R83, R88). -/
def Instr.wf : Instr → Bool
  | .acq _ => true
  | .pin _ _ => true
  | .mode _ idx _ => decide (idx.toNat < 8)
  | .out _ idx => decide (idx.toNat < 8)
  | .inp _ idx => decide (idx.toNat < 8)
  | .tgl _ idx => decide (idx.toNat < 8)
  | .high _ _ => true
  | .low _ _ => true
  | .rd _ => true
  | .wr _ _ => true
  | .rot _ n => decide (1 ≤ n.toNat) && decide (n.toNat ≤ 7)
  | .xor _ _ => true
  | .xsh _ => true
  | .pshl _ _ => true
  | .pshr _ _ => true
  | .genm => true
  | .gena => true

end Sys2Proof
end

