-- ==== Sys2Proof/Decode.lean ====
section
/-! DEFINITION. The command word: its fields (rules R80 to R86), the total decoder (rule R94), the reserved
words by name (rule R88) and the encoder (rule R81). -/

namespace Sys2Proof

/-- Why a word is reserved: the clauses (a) to (e) of rule R88.  A word may break several; the decoder names
the first it meets, which no state can show (DESIGN CHOICE, log entry 13; safe). -/
inductive Reserved where
  /-- R88 (a): `op` is not assigned. -/
  | unassignedOpcode
  /-- R88 (b): a field that must be 0 is not 0. -/
  | fieldNotZero
  /-- R88 (c): the port code is 11 or more. -/
  | portCode
  /-- R88 (d): `MODE` or `TGL` with an index of 8 or more. -/
  | pinIndex
  /-- R88 (e): `ROT` with a count outside 1 to 7. -/
  | rotateCount
deriving DecidableEq, Repr

/-- The two answers of rule R94's decoder. -/
inductive Decoded where
  | command (i : Instr)
  | reserved (why : Reserved)
deriving DecidableEq, Repr

/-- The field `op`, bits 31 to 24 (rule R80). -/
def fieldOp (w : Word) : Byte := w.extractLsb' 24 8

/-- The field `fa`, bits 23 to 16 (rule R80). -/
def fieldA (w : Word) : Byte := w.extractLsb' 16 8

/-- The field `fb`, bits 15 to 8 (rule R80). -/
def fieldB (w : Word) : Byte := w.extractLsb' 8 8

/-- The field `fc`, bits 7 to 0 (rule R80). -/
def fieldC (w : Word) : Byte := w.extractLsb' 0 8

/-- The word with the four fields given (rule R80). -/
def packWord (op fa fb fc : Byte) : Word :=
  (((op ++ fa : BitVec 16) ++ fb : BitVec 24) ++ fc : BitVec 32)

/-- The port code of a name, in the order of the enumeration (rule R82). -/
def PortName.code : PortName → Byte
  | .a => 0#8
  | .b => 1#8
  | .c => 2#8
  | .d => 3#8
  | .e => 4#8
  | .f => 5#8
  | .g => 6#8
  | .h => 7#8
  | .j => 8#8
  | .k => 9#8
  | .l => 10#8

/-- The name of a port code; codes 11 to 255 are reserved (rule R82). -/
def PortName.ofCode (v : Byte) : Option PortName :=
  match v with
  | 0#8 => some .a
  | 1#8 => some .b
  | 2#8 => some .c
  | 3#8 => some .d
  | 4#8 => some .e
  | 5#8 => some .f
  | 6#8 => some .g
  | 7#8 => some .h
  | 8#8 => some .j
  | 9#8 => some .k
  | 10#8 => some .l
  | _ => none

/-- The mode bit: 0 Input, 1 Output (rules R84, R87). -/
def IOMode.code : IOMode → Byte
  | .input => 0#8
  | .output => 1#8

/-- The mode of an `fc` field; only 0 and 1 have one (rules R84, R94). -/
def IOMode.ofCode (v : Byte) : Option IOMode :=
  match v with
  | 0#8 => some .input
  | 1#8 => some .output
  | _ => none

/-- The command with a port operand, when the code names a port (rule R88 (c)). -/
def withPort (fa : Byte) (k : PortName → Decoded) : Decoded :=
  match PortName.ofCode fa with
  | some p => k p
  | none => .reserved .portCode

/-- The answer `d` when a constraint of rule R81 holds, else the reason it is reserved. -/
def ensure (ok : Bool) (why : Reserved) (d : Decoded) : Decoded :=
  if ok then d else .reserved why

/-- The decoder on the four fields, row by row of rule R94. -/
def decodeFields (op fa fb fc : Byte) : Decoded :=
  match op with
  | 0x01#8 => withPort fa fun p => ensure (fb == 0#8 && fc == 0#8) .fieldNotZero (.command (.acq p))
  | 0x02#8 => withPort fa fun p => ensure (fc == 0#8) .fieldNotZero (.command (.pin p fb))
  | 0x03#8 => withPort fa fun p => ensure (decide (fb.toNat < 8)) .pinIndex
      (match IOMode.ofCode fc with
        | some m => .command (.mode p fb m)
        | none => .reserved .fieldNotZero)
  | 0x04#8 => withPort fa fun p => ensure (decide (fb.toNat < 8)) .pinIndex
      (ensure (fc == 0#8) .fieldNotZero (.command (.tgl p fb)))
  | 0x05#8 => withPort fa fun p => ensure (fc == 0#8) .fieldNotZero (.command (.high p fb))
  | 0x06#8 => withPort fa fun p => ensure (fc == 0#8) .fieldNotZero (.command (.low p fb))
  | 0x10#8 => ensure (fc == 0#8) .fieldNotZero (.command (.rd (fa ++ fb)))
  | 0x11#8 => .command (.wr (fa ++ fb) fc)
  | 0x20#8 => ensure (decide (1 ≤ fb.toNat) && decide (fb.toNat ≤ 7)) .rotateCount
      (ensure (fc == 0#8) .fieldNotZero (.command (.rot fa fb)))
  | 0x21#8 => ensure (fc == 0#8) .fieldNotZero (.command (.xor fa fb))
  | 0x22#8 => ensure (fb == 0#8 && fc == 0#8) .fieldNotZero (.command (.xsh fa))
  | 0x23#8 => ensure (fc == 0#8) .fieldNotZero (.command (.pshl fa fb))
  | 0x24#8 => ensure (fc == 0#8) .fieldNotZero (.command (.pshr fa fb))
  | 0x30#8 => ensure (fa == 0#8 && fb == 0#8 && fc == 0#8) .fieldNotZero (.command .genm)
  | 0x31#8 => ensure (fa == 0#8 && fb == 0#8 && fc == 0#8) .fieldNotZero (.command .gena)
  | _ => .reserved .unassignedOpcode

/-- `decode(w)` of rule R94: one command, or reserved.  `OUT` and `IN` are not separate results: their words
decode to `MODE` (rules R92, R94; log entry 11). -/
def decode (w : Word) : Decoded :=
  decodeFields (fieldOp w) (fieldA w) (fieldB w) (fieldC w)

/-- The high byte of an address, the field `fa` of format B (rule R85). -/
def addrHi (a : Addr) : Byte := a.extractLsb' 8 8

/-- The low byte of an address, the field `fb` of format B (rule R85). -/
def addrLo (a : Addr) : Byte := a.extractLsb' 0 8

/-- The word of a command (rule R81); `OUT` and `IN` have the words of `MODE`. -/
def encode : Instr → Word
  | .acq p => packWord 0x01#8 p.code 0#8 0#8
  | .pin p idx => packWord 0x02#8 p.code idx 0#8
  | .mode p idx m => packWord 0x03#8 p.code idx m.code
  | .out p idx => packWord 0x03#8 p.code idx 1#8
  | .inp p idx => packWord 0x03#8 p.code idx 0#8
  | .tgl p idx => packWord 0x04#8 p.code idx 0#8
  | .high p idx => packWord 0x05#8 p.code idx 0#8
  | .low p idx => packWord 0x06#8 p.code idx 0#8
  | .rd addr => packWord 0x10#8 (addrHi addr) (addrLo addr) 0#8
  | .wr addr data => packWord 0x11#8 (addrHi addr) (addrLo addr) data
  | .rot b n => packWord 0x20#8 b n 0#8
  | .xor a b => packWord 0x21#8 a b 0#8
  | .xsh a => packWord 0x22#8 a 0#8 0#8
  | .pshl val change => packWord 0x23#8 val change 0#8
  | .pshr val change => packWord 0x24#8 val change 0#8
  | .genm => packWord 0x30#8 0#8 0#8 0#8
  | .gena => packWord 0x31#8 0#8 0#8 0#8

/-- The spelling the decoder answers with: `OUT` and `IN` become `MODE` (rule R92), the rest stand. -/
def Instr.canonical : Instr → Instr
  | .out p idx => .mode p idx .output
  | .inp p idx => .mode p idx .input
  | i => i

/-- The instruction of a word of the opcode table, for the host: the word is presented whole (rule R80), so
the low `nbits` bits of `w` are its bits and the rest are 0 (log entry 12). -/
def decodeTableWord (nbits w : Nat) : Option Instr :=
  match decode (BitVec.ofNat 32 (w % 2 ^ nbits)) with
  | .command i => some i
  | .reserved _ => none

end Sys2Proof
end

