-- ==== Sys2Proof/Machine/State.lean ====
section
/-! DEFINITION. The state: the block's own (rule R20), and with it the host side, the parameters, the inputs and
the recorded outputs of a step (rules R8, R30, R35). -/

namespace Sys2Proof.Machine

/-- The cause of a fatal fault (rule R200). -/
inductive Cause where
  /-- Cause 1: a generator command of the other mode (rule R201). -/
  | modeMismatch
  /-- Cause 2: a reserved command word (rule R202). -/
  | illegalCommand
deriving DecidableEq, Repr

/-- The response of a command; one each (rule R13). -/
inductive Response where
  | done
  | byte (v : Byte)
  | addr (a : Addr)
  | pinHandle (p : PortName) (idx : Fin 8)
  | absent
  | notSelected
  | fatal (c : Cause)
deriving DecidableEq, Repr

/-- An event of the bus trace (rules R57, R58, R60). -/
inductive BusEvent where
  | rd (a : Addr) (v : Byte)
  | wr (a : Addr) (v : Byte)
deriving DecidableEq, Repr

/-- An event of the collaborator trace (rule R183). -/
inductive CollabEvent where
  | sensorBegin (dpsScale gRange : Int)
  | sensorReadGyro
  | sensorReadAccel
  | delay (ms : Nat)
  | analogSession
deriving DecidableEq, Repr

/-- The three registers of a port, in ascending address order (rules R37, R51). -/
inductive RegKind where
  | pin
  | ddr
  | port
deriving DecidableEq, Repr

/-- One of the 33 addressed registers (rule R51). -/
structure Reg where
  port : PortName
  kind : RegKind
deriving DecidableEq, Repr

/-- The four states of a pin (rule R25). -/
inductive PadState where
  | inFloat
  | inPullup
  | outLow
  | outHigh
deriving DecidableEq, Repr

/-- One byte for each of the eleven ports: `ddr` or `port` as a total function of the port name, held as plain
data (rule R36). -/
structure Bank where
  a : Byte
  b : Byte
  c : Byte
  d : Byte
  e : Byte
  f : Byte
  g : Byte
  h : Byte
  j : Byte
  k : Byte
  l : Byte
deriving DecidableEq, Repr

/-- The contents of `accelOutput[0..2]` and `gyroOutput[0..2]` after both reads: the input of one `GENM`
(rule R183). -/
structure SensorReading where
  accel0 : Int
  accel1 : Int
  accel2 : Int
  gyro0  : Int
  gyro1  : Int
  gyro2  : Int
deriving DecidableEq, Repr

/-- The state of a run. -/
structure State where
  /-- The parameters of the instance; no step changes them (rules R8, R28; log entry 5). -/
  cfg         : Config
  /-- The program the host holds (rules R30, R66; log entry 1). -/
  prog        : List Word
  /-- The host's index of the next command (rule R30). -/
  pc          : Nat
  /-- The direction registers (rules R20, R22). -/
  ddr         : Bank
  /-- The output / pull-up registers (rules R20, R23). -/
  port        : Bank
  /-- The fault latch (rule R27). -/
  fatal       : Option Cause
  /-- The responses given, oldest first (rules R13, R246; log entry 10). -/
  responses   : List Response
  /-- The bus trace, oldest first (rule R60; log entry 10). -/
  busTrace    : List BusEvent
  /-- The collaborator trace, oldest first (rule R183; log entry 10). -/
  collabTrace : List CollabEvent
  /-- The readings the sensor will give, next first (rules R35, R183; log entry 8). -/
  sensorIn    : List SensorReading
  /-- The model's own: how many free values have been drawn (log entry 9). -/
  draws       : Nat
deriving DecidableEq, Repr

/-- The faults of the model.  The block's own faults (rule R200) are no stop: they latch a cause and answer a
next state (rule R206). -/
inductive Fault where
  /-- Raised by `step` when the program holds no command at `pc`: the run has ended (rules R30, R246).  Safe:
  the machine stops where the spec says that the run ends (log entry 2). -/
  | runEnded
deriving DecidableEq, Repr

/-- The refusals of the model. -/
inductive Refusal where
  /-- Raised by an arm of `exec` whose instruction has no meaning yet; no arm is so.  Safe. -/
  | notModelled (mnemonic : String)
deriving DecidableEq, Repr

/-- A bank of zeros. -/
def Bank.zero : Bank := ⟨0#8, 0#8, 0#8, 0#8, 0#8, 0#8, 0#8, 0#8, 0#8, 0#8, 0#8⟩

/-- The machine after reset (rules R33, R230): the latch clear, `pc` 0, nothing recorded.  The 22 register
bytes are unspecified under the default `P_RESET = any`; they are 0x00 here (DESIGN CHOICE, log entry 4;
unsafe for a claim about this one state).  No program is loaded (DESIGN CHOICE, log entry 1).  The queue of sensor readings
to come is empty, which the spec does not say: a first `GENM` reads free words (DESIGN CHOICE, log entry 8; safe).  The
parameters without a default (log entries 6, 7), the count of draws (log entry 9) and the empty records (log entry 10) are
the model's choice too. -/
def State.reset : State where
  cfg := Config.default
  prog := []
  pc := 0
  ddr := Bank.zero
  port := Bank.zero
  fatal := none
  responses := []
  busTrace := []
  collabTrace := []
  sensorIn := []
  draws := 0

end Sys2Proof.Machine
end

