-- ==== Sys2Proof/Machine/Operands.lean ====
section
/-! DEFINITION. Operands: masks, register addresses and their decoding, sensor words. -/

namespace Sys2Proof.Machine

/-- `mask(i) = 1 <<8 i` (rules R11, R87). -/
def mask (idx : Byte) : Byte := 1#8 <<< idx.toNat

/-- The base address of a port, the table of rule R51. -/
def base : PortName → Addr
  | .a => 0x20#16
  | .b => 0x23#16
  | .c => 0x26#16
  | .d => 0x29#16
  | .e => 0x2C#16
  | .f => 0x2F#16
  | .g => 0x32#16
  | .h => 0x100#16
  | .j => 0x103#16
  | .k => 0x106#16
  | .l => 0x109#16

/-- The offset of a register in its port: PINx 0, DDRx 1, PORTx 2 (rule R51). -/
def RegKind.offset : RegKind → Addr
  | .pin => 0#16
  | .ddr => 1#16
  | .port => 2#16

/-- The address of a register (rules R12, R51). -/
def Reg.addr (r : Reg) : Addr := base r.port + r.kind.offset

/-- `PINR(p)` (rule R12). -/
def pinr (p : PortName) : Reg := ⟨p, .pin⟩

/-- `DDRR(p)` (rule R12). -/
def ddrr (p : PortName) : Reg := ⟨p, .ddr⟩

/-- `PORTR(p)` (rule R12). -/
def portr (p : PortName) : Reg := ⟨p, .port⟩

/-- The register with a given offset (rule R52). -/
def RegKind.ofOffset (n : Nat) : Option RegKind :=
  match n with
  | 0 => some .pin
  | 1 => some .ddr
  | 2 => some .port
  | _ => none

/-- The register of a port code and an offset (rule R52). -/
def Reg.ofCode (code offset : Nat) : Option Reg :=
  match PortName.ofCode (BitVec.ofNat 8 code), RegKind.ofOffset offset with
  | some p, some k => some ⟨p, k⟩
  | _, _ => none

/-- The address decode of rule R52; `none` is unmapped (rule R53). -/
def decodeAddr (a : Addr) : Option Reg :=
  if 0x20 ≤ a.toNat ∧ a.toNat ≤ 0x34 then
    Reg.ofCode ((a.toNat - 0x20) / 3) ((a.toNat - 0x20) % 3)
  else if 0x100 ≤ a.toNat ∧ a.toNat ≤ 0x10B then
    Reg.ofCode (7 + (a.toNat - 0x100) / 3) ((a.toNat - 0x100) % 3)
  else none

/-- `low8(z)`: the low 8 bits of a two's-complement integer (rule R11). -/
def low8 (z : Int) : Byte := BitVec.ofInt 8 z

/-- A sensor word as the block sees it: a signed integer of `W_SENSOR` bits (rules R8, R183). -/
def sensorWord (width : Nat) (z : Int) : Int := (BitVec.ofInt width z).toInt

/-- The number of a cause (rule R200). -/
def Cause.code : Cause → Nat
  | .modeMismatch => 1
  | .illegalCommand => 2

/-- The pin state of a direction bit and an output bit (rule R25). -/
def padOf (direction output : Bool) : PadState :=
  match direction, output with
  | false, false => .inFloat
  | false, true => .inPullup
  | true, false => .outLow
  | true, true => .outHigh

end Sys2Proof.Machine
end

