-- ==== Sys2Proof/Machine/Flags.lean ====
section
/-! DEFINITION. The block has no flags (rule R31).  The conditions that steer `HIGH` and `LOW` are computed afresh
by each command: the guards of rule R138. -/

namespace Sys2Proof.Machine

/-- `dir_out(dv)` (rule R138). -/
def dirOut (g : Guard) (dv m : Byte) : Bool :=
  match g with
  | .whole => dv == m
  | .bit => (dv &&& m) != 0#8

/-- `is_low(pv)` (rule R138). -/
def isLow (g : Guard) (pv m : Byte) : Bool :=
  match g with
  | .whole => pv == 0#8
  | .bit => (pv &&& m) == 0#8

/-- `is_high(pv) = not is_low(pv)` (rule R138). -/
def isHigh (g : Guard) (pv m : Byte) : Bool := !(isLow g pv m)

/-- When `HIGH` toggles (rule R136). -/
def highToggles (c : Config) (dv pv m : Byte) : Bool :=
  dirOut c.guardDdr dv m && isLow c.guardPort pv m

/-- When `LOW` toggles (rule R137). -/
def lowToggles (c : Config) (dv pv m : Byte) : Bool :=
  dirOut c.guardDdr dv m && isHigh c.guardPort pv m

end Sys2Proof.Machine
end

