-- ==== Sys2Proof/Machine/Ops.lean ====
section
/-! DEFINITION. The named operations on the state: the banks, the records, `MemRead` and `MemWrite`, the free draw,
the sensor input, fault entry, reset, and the rule common to all commands. -/

namespace Sys2Proof.Machine

/-- The byte of a port (rule R36). -/
def Bank.get (x : Bank) : PortName → Byte
  | .a => x.a
  | .b => x.b
  | .c => x.c
  | .d => x.d
  | .e => x.e
  | .f => x.f
  | .g => x.g
  | .h => x.h
  | .j => x.j
  | .k => x.k
  | .l => x.l

/-- The bank with the byte of one port replaced (rule R36). -/
def Bank.set (x : Bank) (p : PortName) (v : Byte) : Bank :=
  match p with
  | .a => { x with a := v }
  | .b => { x with b := v }
  | .c => { x with c := v }
  | .d => { x with d := v }
  | .e => { x with e := v }
  | .f => { x with f := v }
  | .g => { x with g := v }
  | .h => { x with h := v }
  | .j => { x with j := v }
  | .k => { x with k := v }
  | .l => { x with l := v }

/-- `ddr[p] <- v` (rule R12). -/
def State.setDdr (s : State) (p : PortName) (v : Byte) : State := { s with ddr := s.ddr.set p v }

/-- `port[p] <- v` (rule R12). -/
def State.setPort (s : State) (p : PortName) (v : Byte) : State := { s with port := s.port.set p v }

/-- `respond X` (rules R12, R13). -/
def State.respond (s : State) (r : Response) : State := { s with responses := s.responses ++ [r] }

/-- `pc <- pc + 1` (rules R12, R30). -/
def State.advance (s : State) : State := { s with pc := s.pc + 1 }

/-- Append an event to the bus trace (rules R12, R60). -/
def State.logBus (s : State) (e : BusEvent) : State := { s with busTrace := s.busTrace ++ [e] }

/-- `emit E` (rules R12, R183). -/
def State.emit (s : State) (e : CollabEvent) : State := { s with collabTrace := s.collabTrace ++ [e] }

/-- `fatal <- cause` (rule R206). -/
def State.latch (s : State) (c : Cause) : State := { s with fatal := some c }

/-- Count `n` free values as drawn (log entry 9). -/
def State.takeDraws (s : State) (n : Nat) : State := { s with draws := s.draws + n }

/-- Leave `rest` as the readings still to come (log entry 8). -/
def State.leaveReadings (s : State) (rest : List SensorReading) : State := { s with sensorIn := rest }

/-- The stored byte behind a register: PINx has none of its own and shows `port[p]` (rules R24, R37). -/
def State.stored (s : State) (r : Reg) : Byte :=
  match r.kind with
  | .pin => s.port.get r.port
  | .ddr => s.ddr.get r.port
  | .port => s.port.get r.port

/-- The stored byte behind an address, `none` when unmapped (rules R52, R53).  It is a view, not an access. -/
def State.peek (s : State) (a : Addr) : Option Byte := (decodeAddr a).map s.stored

/-- `pad(p, i)` (rules R25, R26). -/
def State.pad (s : State) (p : PortName) (idx : Fin 8) : PadState :=
  padOf ((s.ddr.get p).getLsbD idx) ((s.port.get p).getLsbD idx)

/-- `draw8()`: a fresh free byte (rules R12, R186; log entry 9). -/
def draw8 (s : State) : Byte × State := (Config.freeByte s.draws, s.takeDraws 1)

/-- The value a read of a register returns, with the state after any draw (rule R57). -/
def readValue (r : Reg) (s : State) : Byte × State :=
  match r.kind, s.cfg.pinRead with
  | .pin, .padDraw =>
    ((s.port.get r.port &&& s.ddr.get r.port) ||| ((draw8 s).1 &&& ~~~(s.ddr.get r.port)), (draw8 s).2)
  | _, _ => (s.stored r, s)

/-- `MemRead(a, 1)` of a mapped register (rule R57): the value, and the state with the event recorded. -/
def memRead (r : Reg) (s : State) : Byte × State :=
  ((readValue r s).1, (readValue r s).2.logBus (.rd r.addr (readValue r s).1))

/-- What a write of a byte to a register leaves: PINx toggles `port[p]`, DDRx and PORTx store (rule R58). -/
def storeReg (r : Reg) (v : Byte) (s : State) : State :=
  match r.kind with
  | .pin => s.setPort r.port (s.port.get r.port ^^^ v)
  | .ddr => s.setDdr r.port v
  | .port => s.setPort r.port v

/-- `MemWrite(a, 1, v)` of a mapped register (rule R58). -/
def memWrite (r : Reg) (v : Byte) (s : State) : State := (storeReg r v s).logBus (.wr r.addr v)

/-- Six fresh free sensor words (log entry 8). -/
def freeReading (s : State) : SensorReading :=
  ⟨Config.freeSensorWord s.draws, Config.freeSensorWord (s.draws + 1), Config.freeSensorWord (s.draws + 2),
    Config.freeSensorWord (s.draws + 3), Config.freeSensorWord (s.draws + 4), Config.freeSensorWord (s.draws + 5)⟩

/-- The reading the next `GENM` takes: the first the host supplied, else free words (rule R183; log entry 8). -/
def nextReading (s : State) : SensorReading :=
  match s.sensorIn with
  | r :: _ => r
  | [] => freeReading s

/-- The state after a reading is taken (log entry 8). -/
def dropReading (s : State) : State :=
  match s.sensorIn with
  | _ :: rest => s.leaveReadings rest
  | [] => s.takeDraws 6

/-- The low byte of a sensor word as the block takes it (rules R181, R183). -/
def sensorByte (c : Config) (z : Int) : Byte := low8 (sensorWord c.wSensor z)

/-- The end of a command that completes: its response, then `pc <- pc + 1` (rule R112). -/
def complete (r : Response) (s : State) : State := (s.respond r).advance

/-- Fault entry, `raise Fatal(cause)`: the cause is latched, the response is `Fatal(cause)`, and nothing else
changes (rule R206). -/
def raiseFatal (c : Cause) (s : State) : State := (s.latch c).respond (.fatal c)

/-- What a presented command does while a cause is latched: it responds with that cause (rule R207). -/
def answerLatched (c : Cause) (s : State) : State := s.respond (.fatal c)

/-- The rule common to all commands: the body runs only while `fatal = none` (rules R112, R205, R207). -/
def execute (body : State → State) (s : State) : Host.Outcome State Fault Refusal :=
  match s.fatal with
  | some c => .next (answerLatched c s)
  | none => .next (body s)

/-- The body of a command whose operand must satisfy a constraint of rule R81; a term that breaks it is an
illegal command (rule R88; log entry 20). -/
def legalOnly (ok : Bool) (body : State → State) (s : State) : State :=
  if ok then body s else raiseFatal .illegalCommand s

/-- The reset event (rules R33, R230), which comes before a run and never during one; nothing else clears the
latch (rule R207).  `d` and `q` are the unspecified bytes of `P_RESET = any`.  The records begin empty
(log entry 19); the parameters and what the host holds stand. -/
def resetEvent (d q : Bank) (s : State) : State :=
  { s with
    pc := 0
    fatal := none
    ddr := match s.cfg.resetRule with | .any => d | .zero => Bank.zero
    port := match s.cfg.resetRule with | .any => q | .zero => Bank.zero
    responses := []
    busTrace := []
    collabTrace := [] }

/-- The command word the host presents next, if the run has one (rules R30, R246). -/
def fetch (s : State) : Option Word := s.prog[s.pc]?

/-- The program with `w` at index `n` (used to place a word where `fetch` finds it). -/
def placeWord (prog : List Word) (n : Nat) (w : Word) : List Word :=
  prog.take n ++ List.replicate (n - prog.length) 0#32 ++ w :: prog.drop (n + 1)

end Sys2Proof.Machine
end

