-- ==== Sys2Proof/Machine/BusAccess.lean ====
section
/-! DEFINITION. The bus access commands RD and WR (spec/40_bus_access.md). -/

namespace Sys2Proof.Machine

/-- The read of `RD`: an unmapped address is not answered (rules R53, R110). -/
def readAt (addr : Addr) (s : State) : State :=
  match decodeAddr addr with
  | none => complete .notSelected s
  | some r => complete (.byte (memRead r s).1) (memRead r s).2

/-- The write of `WR`: an unmapped address is not answered (rules R53, R111). -/
def writeAt (addr : Addr) (data : Byte) (s : State) : State :=
  match decodeAddr addr with
  | none => complete .notSelected s
  | some r => complete .done (memWrite r data s)

/-- `RD addr` (rule R110). -/
def execRd (addr : Addr) (s : State) : Host.Outcome State Fault Refusal :=
  execute (readAt addr) s

/-- `WR addr, data` (rule R111). -/
def execWr (addr : Addr) (data : Byte) (s : State) : Host.Outcome State Fault Refusal :=
  execute (writeAt addr data) s

end Sys2Proof.Machine
end

