-- ==== Sys2Proof/Machine/BitMixer.lean ====
section
/-! DEFINITION. The BitMixer commands (spec/42_bitmixer.md): five functions of bytes.  Left shifts drop what leaves
bit 7 and right shifts are logical (rules R11, R160). -/

namespace Sys2Proof.Machine

/-- `rotate(b, n)`, which has a value for `n` in 1 to 7 and none for any other count (rule R161 (a), entry U2 of
spec/93_implementation_defined.md). -/
def rotate (b n : Byte) : Option Byte :=
  if 1 ≤ n.toNat ∧ n.toNat ≤ 7 then some ((b >>> n.toNat) ||| (b <<< (8 - n.toNat))) else none

/-- `xor(a, b)`, computed as the rule gives it (rule R162). -/
def xorBytes (a b : Byte) : Byte := (a ||| b) - (a &&& b)

/-- `xorShift(a)`: all four terms shift the same input (rule R163). -/
def xorShift (a : Byte) : Byte := a ^^^ (a >>> 3) ^^^ (a <<< 5) ^^^ (a >>> 4)

/-- `pushLeft(val, change)` (rule R164). -/
def pushLeft (val change : Byte) : Byte := (val <<< 1) ^^^ change ^^^ val

/-- `pushRight(val, change)` (rule R165). -/
def pushRight (val change : Byte) : Byte := (val >>> 1) ^^^ (change <<< 7) ^^^ val

/-- The end of a command whose result is a byte, or no value where its operands have none, which is an illegal
command (rule R88; log entry 20). -/
def answerByte (r : Option Byte) (s : State) : State :=
  match r with
  | some v => complete (.byte v) s
  | none => raiseFatal .illegalCommand s

/-- `ROT b, n` (rule R161); a count outside 1 to 7 is an illegal command (rule R88). -/
def execRot (b n : Byte) (s : State) : Host.Outcome State Fault Refusal :=
  execute (answerByte (rotate b n)) s

/-- `XOR a, b` (rule R162). -/
def execXor (a b : Byte) (s : State) : Host.Outcome State Fault Refusal :=
  execute (complete (.byte (xorBytes a b))) s

/-- `XSH a` (rule R163). -/
def execXsh (a : Byte) (s : State) : Host.Outcome State Fault Refusal :=
  execute (complete (.byte (xorShift a))) s

/-- `PSHL val, change` (rule R164). -/
def execPshl (val change : Byte) (s : State) : Host.Outcome State Fault Refusal :=
  execute (complete (.byte (pushLeft val change))) s

/-- `PSHR val, change` (rule R165). -/
def execPshr (val change : Byte) (s : State) : Host.Outcome State Fault Refusal :=
  execute (complete (.byte (pushRight val change))) s

end Sys2Proof.Machine
end

