-- ==== Sys2Proof/Machine/Generators.lean ====
section
/-! DEFINITION. The generator commands GENM and GENA (spec/43_pipelines.md). -/

namespace Sys2Proof.Machine

/-- `bits1` or `bits2` of the motion path, from the three bytes of one sensor (rule R182). -/
def motionBits (x y z : Byte) : Byte :=
  ((x &&& 0x03#8) <<< 6) ^^^ (z <<< 4) ^^^ (y <<< 2) ^^^ x ^^^ (z >>> 2)

/-- `mix_motion(a, b, c, d, e, f)`: `xorShift` meets the accel half only (rule R182). -/
def mixMotion (a b c d e f : Byte) : Byte := xorShift (motionBits a b c) ^^^ motionBits d e f

/-- The motion path on a reading: accel bytes are `a`, `b`, `c`, gyro bytes `d`, `e`, `f` (rule R181). -/
def motionResult (c : Config) (r : SensorReading) : Byte :=
  mixMotion (sensorByte c r.accel0) (sensorByte c r.accel1) (sensorByte c r.accel2)
    (sensorByte c r.gyro0) (sensorByte c r.gyro1) (sensorByte c r.gyro2)

/-- The events of `GENM`, in order (rule R181). -/
def emitMotionSession (s : State) : State :=
  ((((s.emit (.sensorBegin s.cfg.dpsScale s.cfg.gRange)).emit .sensorReadGyro).emit (.delay 1000)).emit
    .sensorReadAccel).emit (.delay 1000)

/-- The mode check, the first thing a generator command does (rule R180). -/
def inMode (m : GenMode) (body : State → State) (s : State) : State :=
  if s.cfg.genMode = m then body s else raiseFatal .modeMismatch s

/-- `GENM` (rule R181). -/
def execGenm (s : State) : Host.Outcome State Fault Refusal :=
  execute (inMode .motion fun s =>
    complete (.byte (motionResult s.cfg (nextReading s))) (dropReading (emitMotionSession s))) s

/-- `GENA` (rules R184, R186): the result is a free draw.  It makes no register access, which is the spec's own
premise (log entry 15). -/
def execGena (s : State) : Host.Outcome State Fault Refusal :=
  execute (inMode .analog fun s =>
    complete (.byte (draw8 (s.emit .analogSession)).1) (draw8 (s.emit .analogSession)).2) s

end Sys2Proof.Machine
end

