-- ==== Sys2Proof/Machine/PinOps.lean ====
section
/-! DEFINITION. The Pin-level commands (spec/41_pin_ops.md). -/

namespace Sys2Proof.Machine

/-- `ACQ p` (rule R130). -/
def execAcq (p : PortName) (s : State) : Host.Outcome State Fault Refusal :=
  execute (complete (.addr (base p))) s

/-- The answer of `PIN`: a handle when the index is below 8, else `Absent` (rule R131). -/
def pinAnswer (p : PortName) (idx : Byte) : Response :=
  if h : idx.toNat < 8 then .pinHandle p ⟨idx.toNat, h⟩ else .absent

/-- `PIN p, i` (rule R131). -/
def execPin (p : PortName) (idx : Byte) (s : State) : Host.Outcome State Fault Refusal :=
  execute (complete (pinAnswer p idx)) s

/-- The byte `MODE` writes back: the target bit cleared, then set for Output (rule R132). -/
def modeByte (v m : Byte) (md : IOMode) : Byte :=
  (v &&& ~~~m) ||| (match md with | .output => m | .input => 0#8)

/-- The accesses of `MODE`: one read and one write of DDRx (rule R132). -/
def setMode (p : PortName) (idx : Byte) (md : IOMode) (s : State) : State :=
  complete .done
    (memWrite (ddrr p) (modeByte (memRead (ddrr p) s).1 (mask idx) md) (memRead (ddrr p) s).2)

/-- `MODE p, i, mode` (rule R132). -/
def execMode (p : PortName) (idx : Byte) (md : IOMode) (s : State) : Host.Outcome State Fault Refusal :=
  execute (legalOnly (decide (idx.toNat < 8)) (setMode p idx md)) s

/-- `OUT p, i` (rule R133). -/
def execOut (p : PortName) (idx : Byte) (s : State) : Host.Outcome State Fault Refusal :=
  execute (legalOnly (decide (idx.toNat < 8)) (setMode p idx .output)) s

/-- `IN p, i` (rule R134). -/
def execInp (p : PortName) (idx : Byte) (s : State) : Host.Outcome State Fault Refusal :=
  execute (legalOnly (decide (idx.toNat < 8)) (setMode p idx .input)) s

/-- The toggle: the pin's mask is written to PINx (rule R135). -/
def toggle (p : PortName) (idx : Byte) (s : State) : State := memWrite (pinr p) (mask idx) s

/-- `TGL p, i` (rule R135). -/
def execTgl (p : PortName) (idx : Byte) (s : State) : Host.Outcome State Fault Refusal :=
  execute (legalOnly (decide (idx.toNat < 8)) fun s => complete .done (toggle p idx s)) s

/-- The shape `HIGH` and `LOW` share: nothing for an index of 8 or more; else DDRx is read, then PORTx, and the
toggle is made when `test` of the two bytes says so (rules R136, R137). -/
def guardedToggle (test : Config → Byte → Byte → Byte → Bool) (p : PortName) (idx : Byte) (s : State) : State :=
  if idx.toNat < 8 then
    let d := memRead (ddrr p) s
    let q := memRead (portr p) d.2
    complete .done (if test s.cfg d.1 q.1 (mask idx) then toggle p idx q.2 else q.2)
  else complete .done s

/-- `HIGH p, i` (rule R136). -/
def execHigh (p : PortName) (idx : Byte) (s : State) : Host.Outcome State Fault Refusal :=
  execute (guardedToggle highToggles p idx) s

/-- `LOW p, i` (rule R137). -/
def execLow (p : PortName) (idx : Byte) (s : State) : Host.Outcome State Fault Refusal :=
  execute (guardedToggle lowToggles p idx) s

end Sys2Proof.Machine
end

