-- ==== Sys2Proof/Machine/Dispatch.lean ====
section
/-! DEFINITION. One arm per command. -/

namespace Sys2Proof.Machine

-- The meaning of a command at a state (rule R112).
def exec (i : Instr) (s : State) : Host.Outcome State Fault Refusal :=
  match i with
  | .acq p => Sys2Proof.Machine.execAcq p s
  | .pin p idx => Sys2Proof.Machine.execPin p idx s
  | .mode p idx m => Sys2Proof.Machine.execMode p idx m s
  | .out p idx => Sys2Proof.Machine.execOut p idx s
  | .inp p idx => Sys2Proof.Machine.execInp p idx s
  | .tgl p idx => Sys2Proof.Machine.execTgl p idx s
  | .high p idx => Sys2Proof.Machine.execHigh p idx s
  | .low p idx => Sys2Proof.Machine.execLow p idx s
  | .rd addr => Sys2Proof.Machine.execRd addr s
  | .wr addr data => Sys2Proof.Machine.execWr addr data s
  | .rot b n => Sys2Proof.Machine.execRot b n s
  | .xor a b => Sys2Proof.Machine.execXor a b s
  | .xsh a => Sys2Proof.Machine.execXsh a s
  | .pshl val change => Sys2Proof.Machine.execPshl val change s
  | .pshr val change => Sys2Proof.Machine.execPshr val change s
  | .genm => Sys2Proof.Machine.execGenm s
  | .gena => Sys2Proof.Machine.execGena s

end Sys2Proof.Machine
end

