-- ==== Sys2Proof/Machine/Present.lean ====
section
/-! DEFINITION. A presented command word, in the order of checks of rule R205, and the host's run loop (rule R30). -/

namespace Sys2Proof.Machine

/-- What the block does with a presented word: (1) while a cause is latched it answers with it, (2) a reserved word
raises `IllegalCommand`, (3) a command runs (rules R112, R205, R207). -/
def present (w : Word) (s : State) : Host.Outcome State Fault Refusal :=
  match s.fatal with
  | some c => .next (answerLatched c s)
  | none =>
    match decode w with
    | .reserved _ => .next (raiseFatal .illegalCommand s)
    | .command i => exec i s

/-- One turn of a run: the host presents the word at `pc`; with none there the run has ended (rules R30, R246;
log entries 2, 3). -/
def runNext (s : State) : Host.Outcome State Fault Refusal :=
  match fetch s with
  | some w => present w s
  | none => .fault .runEnded

end Sys2Proof.Machine
end

