-- ==== Sys2Proof/Machine/Step.lean ====
section
/-! DEFINITION. One step of a run, and the placing of a word where the step finds it. -/

namespace Sys2Proof.Machine

/-- One step: the command at `pc` is presented (rules R6, R30). -/
def step (s : State) : Host.Outcome State Fault Refusal := runNext s

/-- The state with the table word `w` as the next command (the host's load of a program, log entry 1). -/
def State.withFetchWord (s : State) (nbits w : Nat) : State :=
  { s with prog := placeWord s.prog s.pc (BitVec.ofNat 32 (w % 2 ^ nbits)) }

end Sys2Proof.Machine
end

