-- ==== Sys2Proof/Safety.lean ====
section
/-! DEFINITION. What claims say of a run: launch states, how a run ends, what its records must say. -/

namespace Sys2Proof.Machine

/-- Where a run begins: after reset, with nothing recorded.  The register bytes are arbitrary, but 0x00 where
`P_RESET = zero` is fixed; the parameters, the program and the sensor readings are arbitrary (rules R33, R231, R233).
The premises R233 (b) and (c) are conditions on the surroundings: nothing else can act here (log entry 16). -/
def State.Launch (s : State) : Prop :=
  s.fatal = none ∧ s.pc = 0 ∧ s.responses = [] ∧ s.busTrace = [] ∧ s.collabTrace = [] ∧
    (s.cfg.resetRule = .zero → s.ddr = Bank.zero ∧ s.port = Bank.zero)

/-- The run has ended successfully (rule R246). -/
def State.RunSucceeded (s : State) : Prop := s.pc = s.prog.length ∧ s.fatal = none

/-- The run has ended unsuccessfully: a cause is latched (rules R207, R246). -/
def State.RunFailed (s : State) : Prop := s.fatal ≠ none

/-- Whether a response says that no command was completed (rule R13). -/
def Response.isFatal : Response → Bool
  | .done => false
  | .byte _ => false
  | .addr _ => false
  | .pinHandle _ _ => false
  | .absent => false
  | .notSelected => false
  | .fatal _ => true

/-- The record of responses of a run: while the latch is clear, one response without a fault for each command
counted by `pc`; once a cause is latched, those, then only that cause, at least once (rules R13, R30, R206, R207). -/
def State.ResponsesAgree (s : State) : Prop :=
  match s.fatal with
  | none => s.responses.length = s.pc ∧ ∀ r ∈ s.responses, r.isFatal = false
  | some c => ∃ completed k, s.responses = completed ++ List.replicate (k + 1) (Response.fatal c) ∧
      completed.length = s.pc ∧ ∀ r ∈ completed, r.isFatal = false

/-- Whether a read of `r` may return `v` when its port holds the bytes `d` and `q` (rule R57). -/
def readAllowed (c : Config) (r : Reg) (d q v : Byte) : Bool :=
  match r.kind, c.pinRead with
  | .pin, .outputState => v == q
  | .pin, .padDraw => (v &&& d) == (q &&& d)
  | .ddr, _ => v == d
  | .port, _ => v == q

/-- One recorded access replayed on the two banks; `none` when the access is to no register, or when the read
returned what it may not (rules R57, R58). -/
def replayEvent (c : Config) (e : BusEvent) (d q : Bank) : Option (Bank × Bank) :=
  match e with
  | .rd a v =>
    match decodeAddr a with
    | some r => if readAllowed c r (d.get r.port) (q.get r.port) v then some (d, q) else none
    | none => none
  | .wr a v =>
    match decodeAddr a with
    | some r =>
      match r.kind with
      | .pin => some (d, q.set r.port (q.get r.port ^^^ v))
      | .ddr => some (d.set r.port v, q)
      | .port => some (d, q.set r.port v)
    | none => none

/-- A bus trace replayed in order from two banks (rule R61). -/
def replay (c : Config) : List BusEvent → Bank → Bank → Option (Bank × Bank)
  | [], d, q => some (d, q)
  | e :: es, d, q =>
    match replayEvent c e d q with
    | some m => replay c es m.1 m.2
    | none => none

/-- The bus trace explains the registers: replayed from the banks `d` and `q` of the launch, every read in it
returned what the writes before it determine, and its writes give the registers as they are (rule R61). -/
def State.TraceExplains (d q : Bank) (s : State) : Prop :=
  replay s.cfg s.busTrace d q = some (s.ddr, s.port)

/-- The port a command's accesses go to, if it can make any (rule R50). -/
def touches : Instr → Option PortName
  | .acq _ => none
  | .pin _ _ => none
  | .mode p _ _ => some p
  | .out p _ => some p
  | .inp p _ => some p
  | .tgl p _ => some p
  | .high p _ => some p
  | .low p _ => some p
  | .rd addr => (decodeAddr addr).map Reg.port
  | .wr addr _ => (decodeAddr addr).map Reg.port
  | .rot _ _ => none
  | .xor _ _ => none
  | .xsh _ => none
  | .pshl _ _ => none
  | .pshr _ _ => none
  | .genm => none
  | .gena => none

end Sys2Proof.Machine
end

