-- ==== Sys2Proof/Certificates/Slice0/Obligations.lean ====
section
/-! DEFINITION. The statements for the provers. -/

open Sys2Proof Sys2Proof.Machine

/-! ## Words -/

/-- Decoding the word of a well-formed command gives the command back; `OUT` and `IN`, which have the words of
`MODE`, come back as `MODE` (rules R81, R92, R94). -/
def Obligations.DecodeOfEncodeGivesTheCommand : Prop :=
  (∀ i : Instr, i.wf = true → decode (encode i) = .command i.canonical) ∧
  (∀ i : Instr, (∀ p idx, i ≠ .out p idx ∧ i ≠ .inp p idx) → i.canonical = i) ∧
  (∀ p idx, (Instr.out p idx).canonical = .mode p idx .output ∧ (Instr.inp p idx).canonical = .mode p idx .input)

/-- Encoding what a word decodes to gives the word back, and a decoded command is well formed and spelled without
`OUT` and `IN` (rule R94). -/
def Obligations.EncodeOfDecodeGivesTheWord : Prop :=
  ∀ (w : Word) (i : Instr), decode w = .command i →
    encode i = w ∧ i.wf = true ∧ ∀ p idx, i ≠ .out p idx ∧ i ≠ .inp p idx

/-- A word is reserved exactly when one of the clauses (a) to (e) of rule R88 holds of its fields, and a reserved
word presented while the latch is clear raises `IllegalCommand` and does nothing else. -/
def Obligations.ReservedWordsAreTheFiveClauses : Prop :=
  ∀ (w : Word) (op fa fb fc : Nat), op = w.toNat / 0x1000000 → fa = w.toNat / 0x10000 % 256 →
    fb = w.toNat / 0x100 % 256 → fc = w.toNat % 256 →
    ((∃ why, decode w = .reserved why) ↔
      -- (a)
      op ∉ [0x01, 0x02, 0x03, 0x04, 0x05, 0x06, 0x10, 0x11, 0x20, 0x21, 0x22, 0x23, 0x24, 0x30, 0x31] ∨
      -- (b)
      (op ∈ [0x30, 0x31] ∧ fa ≠ 0) ∨
      (op ∈ [0x01, 0x22, 0x30, 0x31] ∧ fb ≠ 0) ∨
      (op ∈ [0x01, 0x02, 0x04, 0x05, 0x06, 0x10, 0x20, 0x21, 0x22, 0x23, 0x24, 0x30, 0x31] ∧ fc ≠ 0) ∨
      (op = 0x03 ∧ fc / 2 ≠ 0) ∨
      -- (c)
      (op ∈ [0x01, 0x02, 0x03, 0x04, 0x05, 0x06] ∧ 11 ≤ fa) ∨
      -- (d)
      (op ∈ [0x03, 0x04] ∧ 8 ≤ fb) ∨
      -- (e)
      (op = 0x20 ∧ (fb = 0 ∨ 8 ≤ fb))) ∧
    ∀ (why : Reserved) (s : State), decode w = .reserved why → s.fatal = none →
      present w s = .next { s with
        fatal := some .illegalCommand
        responses := s.responses ++ [.fatal .illegalCommand] }

/-- Words of the spec's examples decode to the commands they are the words of (rules R81, R94). -/
def Obligations.ExampleWordsDecode : Prop :=
  decode 0x01070000#32 = .command (.acq .h) ∧
  decode 0x02010500#32 = .command (.pin .b 5#8) ∧
  decode 0x03010501#32 = .command (.mode .b 5#8 .output) ∧
  decode 0x040A0700#32 = .command (.tgl .l 7#8) ∧
  decode 0x11010A80#32 = .command (.wr 0x010A#16 0x80#8) ∧
  decode 0x20A50300#32 = .command (.rot 0xA5#8 3#8) ∧
  decode 0x24A50100#32 = .command (.pshr 0xA5#8 1#8) ∧
  decode 0x30000000#32 = .command .genm ∧
  decode 0x00000000#32 = .reserved .unassignedOpcode

/-! ## Steps, faults, reset -/

/-- A step presents the word at `pc`; when it decodes to a command, the step is that command's meaning at the same state,
with nothing around it (rules R30, R112).  Those rules say so while the latch is clear.  That a step from a latched state
presents the word again, so that both clauses cover such states too, is the model's choice (log entry 3, DESIGN
CHOICE). -/
def Obligations.StepRunsTheDecodedCommand : Prop :=
  ∀ (s : State) (w : Word), s.prog[s.pc]? = some w →
    step s = present w s ∧ ∀ i, decode w = .command i → step s = exec i s

/-- A step stops only at the end of the run, where the program holds no command at `pc`, and is never refused.  That
the stop there is a fault of this name is the model's choice (log entry 2, DESIGN CHOICE).  Rules R30 and R246 end the run
also when a cause is latched: that a latched state with a word at `pc` still answers a next state, and stops only by
`runEnded`, is the model's choice too (log entry 3, DESIGN CHOICE). -/
def Obligations.StepStopsOnlyAtTheEndOfTheRun : Prop :=
  ∀ s : State,
    (∀ f, step s = .fault f ↔ f = .runEnded ∧ s.prog.length ≤ s.pc) ∧ (∀ r, step s ≠ .refused r) ∧
    (s.pc < s.prog.length → ∃ t, step s = .next t)

/-- The rule common to every command (rule R112): a latched cause keeps it from running; a reserved word raises
`IllegalCommand` and nothing else happens; a decoded command gives exactly one response, and completes with
`pc + 1` unless it is a generator of the other mode, which is a fault. -/
def Obligations.EveryCommandAnswersOnceAndAdvances : Prop :=
  ∀ (w : Word) (s : State),
    (∀ c, s.fatal = some c → present w s = .next { s with responses := s.responses ++ [.fatal c] }) ∧
    (s.fatal = none → ∀ why, decode w = .reserved why →
      present w s = .next { s with
        fatal := some .illegalCommand
        responses := s.responses ++ [.fatal .illegalCommand] }) ∧
    (s.fatal = none → ∀ i, decode w = .command i → ∃ t r, present w s = .next t ∧
      t.responses = s.responses ++ [r] ∧
      ((i = .genm ∧ s.cfg.genMode = .analog ∨ i = .gena ∧ s.cfg.genMode = .motion) → r = .fatal .modeMismatch) ∧
      (¬ (i = .genm ∧ s.cfg.genMode = .analog ∨ i = .gena ∧ s.cfg.genMode = .motion) →
        r.isFatal = false ∧ t.pc = s.pc + 1 ∧ t.fatal = none))

/-- The faults of the block, what raises each, with no other, and their codes (rule R200). -/
def Obligations.OnlyReservedWordsAndWrongGeneratorsFault : Prop :=
  (∀ (s t : State) (w : Word), s.fatal = none → s.prog[s.pc]? = some w → step s = .next t →
    (t.fatal = some .illegalCommand ↔ ∃ why, decode w = .reserved why) ∧
    (t.fatal = some .modeMismatch ↔ (decode w = .command .genm ∧ s.cfg.genMode = .analog) ∨
      (decode w = .command .gena ∧ s.cfg.genMode = .motion))) ∧
  Cause.modeMismatch.code = 1 ∧ Cause.illegalCommand.code = 2

/-- Fault entry (rule R206): the cause is latched and is the response, and nothing else of the state changes: no
register, not `pc`, no event; shown at each of the three places a fault is raised. -/
def Obligations.FaultEntryKeepsEverythingElse : Prop :=
  ∀ (s : State) (c : Cause), s.fatal = none →
    ((c = .illegalCommand ∧ ∃ w why, s.prog[s.pc]? = some w ∧ decode w = .reserved why) ∨
      (c = .modeMismatch ∧ s.prog[s.pc]? = some 0x30000000#32 ∧ s.cfg.genMode = .analog) ∨
      (c = .modeMismatch ∧ s.prog[s.pc]? = some 0x31000000#32 ∧ s.cfg.genMode = .motion)) →
    step s = .next { s with fatal := some c, responses := s.responses ++ [.fatal c] }

/-- After a fault (rule R207): whatever word is presented and whatever the command, the only effect is the response
`Fatal` with the latched cause; every later step keeps it so; reset clears the latch. -/
def Obligations.LatchedFaultIsAnsweredUntilReset : Prop :=
  ∀ (s : State) (c : Cause), s.fatal = some c →
    (∀ w, present w s = .next { s with responses := s.responses ++ [.fatal c] }) ∧
    (∀ i, exec i s = .next { s with responses := s.responses ++ [.fatal c] }) ∧
    (∀ t, step s = .next t → t = { s with responses := s.responses ++ [.fatal c] }) ∧
    (∀ d q, (resetEvent d q s).fatal = none)

/-- What is not a fault (rule R203): an index of 8 or more in `PIN`, `HIGH` and `LOW`; `HIGH` and `LOW` on an input
pin; `ACQ`; `RD` and `WR` of an unmapped address.  `fatal` stays clear and the next command can run. -/
def Obligations.OrdinaryOutcomesAreNoFaults : Prop :=
  ∀ (s : State) (p : PortName) (idx : Byte), s.fatal = none →
    (8 ≤ idx.toNat → exec (.pin p idx) s = .next { s with
      responses := s.responses ++ [.absent], pc := s.pc + 1 }) ∧
    (8 ≤ idx.toNat ∨ (s.ddr.get p).getLsbD idx.toNat = false → ∃ t u,
      exec (.high p idx) s = .next t ∧ exec (.low p idx) s = .next u ∧
      t = { s with responses := s.responses ++ [.done], pc := s.pc + 1, busTrace := t.busTrace } ∧
      u = { s with responses := s.responses ++ [.done], pc := s.pc + 1, busTrace := u.busTrace }) ∧
    (exec (.acq p) s = .next { s with responses := s.responses ++ [.addr (base p)], pc := s.pc + 1 }) ∧
    (∀ a v, decodeAddr a = none →
      exec (.rd a) s = .next { s with responses := s.responses ++ [.notSelected], pc := s.pc + 1 } ∧
      exec (.wr a v) s = .next { s with responses := s.responses ++ [.notSelected], pc := s.pc + 1 })

/-- The reset table (rule R33): the latch clear and `pc` 0; under `any` the registers hold whatever bytes the reset
left, under `zero` 0x00; PINx, which has no storage, reads as `port[p]` under `output_state`; the parameters stand. -/
def Obligations.ResetLeavesTheTableOfValues : Prop :=
  ∀ (d q : Bank) (s t : State), t = resetEvent d q s →
    t.fatal = none ∧ t.pc = 0 ∧ t.cfg = s.cfg ∧
    (s.cfg.resetRule = .any → t.ddr = d ∧ t.port = q) ∧
    (s.cfg.resetRule = .zero → ∀ p, t.ddr.get p = 0#8 ∧ t.port.get p = 0#8) ∧
    (∀ p, t.cfg.pinRead = .outputState → (memRead (pinr p) t).1 = t.port.get p)

/-- The model's reset state is a launch state and one that the reset event leaves under the default parameters.  Its
register bytes 0x00 are the model's choice (log entry 4), as are the parameter values without a default (log entries 6
and 7). -/
def Obligations.ResetStateIsALaunchState : Prop :=
  State.reset.Launch ∧
  State.reset = resetEvent Bank.zero Bank.zero State.reset ∧
  (∀ p, State.reset.ddr.get p = 0#8 ∧ State.reset.port.get p = 0#8) ∧
  State.reset.cfg.guardPort = .whole ∧ State.reset.cfg.guardDdr = .whole ∧
  State.reset.cfg.pinRead = .outputState ∧ State.reset.cfg.resetRule = .any

/-! ## The register space -/

/-- The address decode and the bases (rule R52), on every address, and that they invert each other. -/
def Obligations.AddressDecodeInvertsTheMap : Prop :=
  (∀ (a : Addr) (r : Reg), decodeAddr a = some r ↔
    (0x20 ≤ a.toNat ∧ a.toNat ≤ 0x34 ∧
      r.port.code.toNat = (a.toNat - 0x20) / 3 ∧ r.kind.offset.toNat = (a.toNat - 0x20) % 3) ∨
    (0x100 ≤ a.toNat ∧ a.toNat ≤ 0x10B ∧
      r.port.code.toNat = 7 + (a.toNat - 0x100) / 3 ∧ r.kind.offset.toNat = (a.toNat - 0x100) % 3)) ∧
  (∀ p : PortName, p.code.toNat ≤ 6 → (base p).toNat = 0x20 + 3 * p.code.toNat) ∧
  (∀ p : PortName, 7 ≤ p.code.toNat → (base p).toNat = 0x100 + 3 * (p.code.toNat - 7)) ∧
  (RegKind.pin.offset = 0#16 ∧ RegKind.ddr.offset = 1#16 ∧ RegKind.port.offset = 2#16) ∧
  (∀ r : Reg, decodeAddr (base r.port + r.kind.offset) = some r)

/-- `MemRead` (rule R57): the value by the kind of register and `P_PIN_READ`, one `Rd` event, and no state changed
but the count of draws, which is the model's own field. -/
def Obligations.MemReadValueAndEvent : Prop :=
  ∀ (r : Reg) (s : State) (v : Byte) (t : State), memRead r s = (v, t) →
    (r.kind = .ddr → v = s.ddr.get r.port) ∧
    (r.kind = .port → v = s.port.get r.port) ∧
    (r.kind = .pin → s.cfg.pinRead = .outputState → v = s.port.get r.port) ∧
    (r.kind = .pin → s.cfg.pinRead = .padDraw → ∃ drawn : Byte,
      v = (s.port.get r.port &&& s.ddr.get r.port) ||| (drawn &&& ~~~(s.ddr.get r.port))) ∧
    t = { s with busTrace := s.busTrace ++ [.rd (base r.port + r.kind.offset) v], draws := t.draws }

/-- `MemWrite` (rule R58): PINx toggles `port[p]`, DDRx and PORTx store; one `Wr` event; at most the one stored
register changes, and nothing else. -/
def Obligations.MemWriteEffectAndEvent : Prop :=
  ∀ (r : Reg) (v : Byte) (s : State), ∃ D P : Bank,
    memWrite r v s = { s with
      ddr := D, port := P, busTrace := s.busTrace ++ [.wr (base r.port + r.kind.offset) v] } ∧
    (r.kind = .pin → P.get r.port = s.port.get r.port ^^^ v ∧ D = s.ddr) ∧
    (r.kind = .ddr → D.get r.port = v ∧ P = s.port) ∧
    (r.kind = .port → P.get r.port = v ∧ D = s.ddr) ∧
    (∀ q, q ≠ r.port → D.get q = s.ddr.get q ∧ P.get q = s.port.get q)

/-- The table of side effects and idempotency (rule R59), on `MemRead` and `MemWrite`, with the aliasing of PINx and
PORTx; the reads of PINx are those of `output_state`. -/
def Obligations.IdempotencyAndAliasing : Prop :=
  ∀ (p : PortName) (v w : Byte) (s : State),
    -- reads have no side effect
    (∀ r, (memRead r s).2.ddr = s.ddr ∧ (memRead r s).2.port = s.port) ∧
    -- PINx: toggles, the second write undoes the first, so it is idempotent only for 0
    ((memWrite (pinr p) v (memWrite (pinr p) v s)).port = s.port) ∧
    ((memWrite (pinr p) v (memWrite (pinr p) v s)).port = (memWrite (pinr p) v s).port ↔ v = 0#8) ∧
    -- DDRx: a plain store, idempotent, read back
    ((memWrite (ddrr p) v (memWrite (ddrr p) v s)).ddr = (memWrite (ddrr p) v s).ddr) ∧
    ((memRead (ddrr p) (memWrite (ddrr p) v s)).1 = v) ∧
    -- PORTx: a plain store, idempotent, read back until the next PINx write
    ((memWrite (portr p) v (memWrite (portr p) v s)).port = (memWrite (portr p) v s).port) ∧
    ((memRead (portr p) (memWrite (portr p) v s)).1 = v) ∧
    ((memRead (portr p) (memWrite (pinr p) w (memWrite (portr p) v s))).1 = v ^^^ w) ∧
    -- PINx and PORTx alias
    ((memRead (portr p) (memWrite (pinr p) v s)).1 = s.port.get p ^^^ v) ∧
    (s.cfg.pinRead = .outputState →
      (memRead (pinr p) (memWrite (portr p) v s)).1 = v ∧
      (memRead (pinr p) (memWrite (pinr p) v s)).1 = s.port.get p ^^^ v)

/-- The four-state machine of a pin (rule R25): its states, what each bus write does to it bit by bit, that a read does
nothing, and that no step changes a pin's state without a recorded write to a register of its port.  For a step of `GENA`
that last clause rests on the premise of rule R184 (decision D17, entry N20) that the analog pin driver touches no
register: log entry 15, unsafe. -/
def Obligations.PinStateMachine : Prop :=
  (∀ (s : State) (p : PortName) (i : Fin 8) (d o : Bool),
    d = (s.ddr.get p).getLsbD i → o = (s.port.get p).getLsbD i →
    (s.pad p i = .inFloat ↔ d = false ∧ o = false) ∧ (s.pad p i = .inPullup ↔ d = false ∧ o = true) ∧
    (s.pad p i = .outLow ↔ d = true ∧ o = false) ∧ (s.pad p i = .outHigh ↔ d = true ∧ o = true)) ∧
  (∀ (s t : State) (p : PortName) (i : Fin 8) (v : Byte),
    (t = memWrite (ddrr p) v s → (t.ddr.get p).getLsbD i = v.getLsbD i ∧
      (t.port.get p).getLsbD i = (s.port.get p).getLsbD i) ∧
    (t = memWrite (portr p) v s → (t.port.get p).getLsbD i = v.getLsbD i ∧
      (t.ddr.get p).getLsbD i = (s.ddr.get p).getLsbD i) ∧
    (t = memWrite (pinr p) v s → (t.ddr.get p).getLsbD i = (s.ddr.get p).getLsbD i ∧
      (t.port.get p).getLsbD i = (if v.getLsbD i then !(s.port.get p).getLsbD i else (s.port.get p).getLsbD i)) ∧
    (∀ r, t = (memRead r s).2 → t.pad p i = s.pad p i)) ∧
  (∀ (s t : State) (p : PortName) (i : Fin 8), step s = .next t →
    (∀ k v, BusEvent.wr (base p + RegKind.offset k) v ∉ t.busTrace.drop s.busTrace.length) →
    t.pad p i = s.pad p i)

/-- `RD` (rule R110): an unmapped address is not answered; a mapped one is read once, its byte is the response, and
no state of the block changes.  The index of `draws` is the model's own field. -/
def Obligations.RdReadsOneRegister : Prop :=
  ∀ (addr : Addr) (s : State), s.fatal = none →
    decode (packWord 0x10#8 (addrHi addr) (addrLo addr) 0#8) = .command (.rd addr) ∧
    (decodeAddr addr = none →
      exec (.rd addr) s = .next { s with responses := s.responses ++ [.notSelected], pc := s.pc + 1 }) ∧
    (∀ r, decodeAddr addr = some r → ∃ v n,
      exec (.rd addr) s = .next { s with
        busTrace := s.busTrace ++ [.rd addr v]
        responses := s.responses ++ [.byte v]
        pc := s.pc + 1
        draws := n } ∧
      (r.kind = .ddr → v = s.ddr.get r.port) ∧
      (r.kind = .port → v = s.port.get r.port) ∧
      (r.kind = .pin → s.cfg.pinRead = .outputState → v = s.port.get r.port) ∧
      (r.kind = .pin → s.cfg.pinRead = .padDraw → v &&& s.ddr.get r.port = s.port.get r.port &&& s.ddr.get r.port))

/-- `WR` (rule R111): an unmapped address is not answered; a mapped one is written once, with the effect of its kind of
register, and no other register of any port changes. -/
def Obligations.WrWritesOneRegister : Prop :=
  ∀ (addr : Addr) (data : Byte) (s : State), s.fatal = none →
    decode (packWord 0x11#8 (addrHi addr) (addrLo addr) data) = .command (.wr addr data) ∧
    (decodeAddr addr = none →
      exec (.wr addr data) s = .next { s with responses := s.responses ++ [.notSelected], pc := s.pc + 1 }) ∧
    (∀ r, decodeAddr addr = some r → ∃ D P : Bank,
      exec (.wr addr data) s = .next { s with
        ddr := D
        port := P
        busTrace := s.busTrace ++ [.wr addr data]
        responses := s.responses ++ [.done]
        pc := s.pc + 1 } ∧
      (r.kind = .pin → P.get r.port = s.port.get r.port ^^^ data ∧ D.get r.port = s.ddr.get r.port) ∧
      (r.kind = .ddr → D.get r.port = data ∧ P.get r.port = s.port.get r.port) ∧
      (r.kind = .port → P.get r.port = data ∧ D.get r.port = s.ddr.get r.port) ∧
      (∀ q, q ≠ r.port → D.get q = s.ddr.get q ∧ P.get q = s.port.get q))

/-! ## Pin-level commands -/

/-- `ACQ` (rule R130): responds with the base address; no access, no record of the acquisition; a port code of 11 or
more is reserved. -/
def Obligations.AcqAnswersTheBase : Prop :=
  (∀ (p : PortName) (s : State), s.fatal = none →
    decode (packWord 0x01#8 p.code 0#8 0#8) = .command (.acq p) ∧
    exec (.acq p) s = .next { s with responses := s.responses ++ [.addr (base p)], pc := s.pc + 1 }) ∧
  (∀ code : Byte, 11 ≤ code.toNat → decode (packWord 0x01#8 code 0#8 0#8) = .reserved .portCode)

/-- `PIN` (rule R131): a handle exactly for an index below 8, else `Absent`; no access and no state. -/
def Obligations.PinAnswersAHandleBelowEight : Prop :=
  ∀ (p : PortName) (idx : Byte) (s : State), s.fatal = none →
    decode (packWord 0x02#8 p.code idx 0#8) = .command (.pin p idx) ∧
    (∀ h : idx.toNat < 8, exec (.pin p idx) s = .next { s with
      responses := s.responses ++ [.pinHandle p ⟨idx.toNat, h⟩], pc := s.pc + 1 }) ∧
    (8 ≤ idx.toNat → exec (.pin p idx) s = .next { s with
      responses := s.responses ++ [.absent], pc := s.pc + 1 })

/-- `MODE` (rule R132): DDRx is read once and written once, with the bit of the pin set to the mode and the other bits
as they were; an index of 8 or more is a reserved encoding. -/
def Obligations.ModeWritesOneDirectionBit : Prop :=
  ∀ (p : PortName) (idx : Byte) (m : IOMode) (s : State),
    (idx.toNat < 8 → decode (packWord 0x03#8 p.code idx m.code) = .command (.mode p idx m)) ∧
    (8 ≤ idx.toNat → ∃ why, decode (packWord 0x03#8 p.code idx m.code) = .reserved why) ∧
    (s.fatal = none → idx.toNat < 8 → ∃ (D : Bank) (v v2 : Byte),
      exec (.mode p idx m) s = .next { s with
        ddr := D
        busTrace := s.busTrace ++ [.rd (base p + 1#16) v, .wr (base p + 1#16) v2]
        responses := s.responses ++ [.done]
        pc := s.pc + 1 } ∧
      v = s.ddr.get p ∧
      v2 = (v &&& ~~~(1#8 <<< idx.toNat)) ||| (if m = .output then 1#8 <<< idx.toNat else 0#8) ∧
      (∀ j, j < 8 → v2.getLsbD j = if j = idx.toNat then decide (m = .output) else v.getLsbD j) ∧
      D.get p = v2 ∧ ∀ q, q ≠ p → D.get q = s.ddr.get q)

/-- `OUT` is `MODE` with mode Output in every respect (rule R133): the same word, the same meaning at every state; and
what it does. -/
def Obligations.OutIsModeOutput : Prop :=
  ∀ (p : PortName) (idx : Byte) (s : State),
    encode (.out p idx) = encode (.mode p idx .output) ∧
    exec (.out p idx) s = exec (.mode p idx .output) s ∧
    (s.fatal = none → idx.toNat < 8 → ∃ (D : Bank) (v : Byte),
      exec (.out p idx) s = .next { s with
        ddr := D
        busTrace := s.busTrace ++ [.rd (base p + 1#16) v, .wr (base p + 1#16) (v ||| 1#8 <<< idx.toNat)]
        responses := s.responses ++ [.done]
        pc := s.pc + 1 } ∧
      v = s.ddr.get p ∧ D.get p = v ||| 1#8 <<< idx.toNat ∧ ∀ q, q ≠ p → D.get q = s.ddr.get q)

/-- `IN` is `MODE` with mode Input in every respect (rule R134): the same word, the same meaning at every state; and
what it does. -/
def Obligations.InIsModeInput : Prop :=
  ∀ (p : PortName) (idx : Byte) (s : State),
    encode (.inp p idx) = encode (.mode p idx .input) ∧
    exec (.inp p idx) s = exec (.mode p idx .input) s ∧
    (s.fatal = none → idx.toNat < 8 → ∃ (D : Bank) (v : Byte),
      exec (.inp p idx) s = .next { s with
        ddr := D
        busTrace := s.busTrace ++ [.rd (base p + 1#16) v, .wr (base p + 1#16) (v &&& ~~~(1#8 <<< idx.toNat))]
        responses := s.responses ++ [.done]
        pc := s.pc + 1 } ∧
      v = s.ddr.get p ∧ D.get p = v &&& ~~~(1#8 <<< idx.toNat) ∧ ∀ q, q ≠ p → D.get q = s.ddr.get q)

/-- `TGL` (rule R135): one write of the pin's mask to PINx and no read; bit `i` of `port[p]` is complemented and no
other bit of any register changes; a second `TGL` of the pin restores `port`; an index of 8 or more is reserved. -/
def Obligations.TglFlipsOneOutputBit : Prop :=
  ∀ (p : PortName) (idx : Byte) (s : State),
    (idx.toNat < 8 → decode (packWord 0x04#8 p.code idx 0#8) = .command (.tgl p idx)) ∧
    (8 ≤ idx.toNat → ∃ why, decode (packWord 0x04#8 p.code idx 0#8) = .reserved why) ∧
    (s.fatal = none → idx.toNat < 8 → ∃ P : Bank,
      exec (.tgl p idx) s = .next { s with
        port := P
        busTrace := s.busTrace ++ [.wr (base p) (1#8 <<< idx.toNat)]
        responses := s.responses ++ [.done]
        pc := s.pc + 1 } ∧
      (∀ j, j < 8 → (P.get p).getLsbD j =
        if j = idx.toNat then !(s.port.get p).getLsbD j else (s.port.get p).getLsbD j) ∧
      (∀ q, q ≠ p → P.get q = s.port.get q) ∧
      ∀ t u, exec (.tgl p idx) s = .next t → exec (.tgl p idx) t = .next u → u.port = s.port)

/-- The guards of `HIGH` and `LOW` (rule R138), with the mask of an index of 0 to 7. -/
def Obligations.GuardsOfHighAndLow : Prop :=
  ∀ (dv pv idx : Byte), idx.toNat < 8 →
    (dirOut .whole dv (mask idx) = true ↔ dv = 1#8 <<< idx.toNat) ∧
    (dirOut .bit dv (mask idx) = true ↔ dv &&& 1#8 <<< idx.toNat ≠ 0#8) ∧
    (dirOut .bit dv (mask idx) = true ↔ dv.getLsbD idx.toNat = true) ∧
    (isLow .whole pv (mask idx) = true ↔ pv = 0#8) ∧
    (isLow .bit pv (mask idx) = true ↔ pv &&& 1#8 <<< idx.toNat = 0#8) ∧
    (isLow .bit pv (mask idx) = true ↔ pv.getLsbD idx.toNat = false) ∧
    (∀ g, isHigh g pv (mask idx) = true ↔ isLow g pv (mask idx) = false)

/-- `HIGH` (rule R136): nothing for an index of 8 or more; else DDRx is read, then PORTx, and the toggle is written
exactly when the direction guard and the level guard hold; with both guards `bit` an output pin ends high. -/
def Obligations.HighTogglesALowOutput : Prop :=
  ∀ (p : PortName) (idx : Byte) (s : State), s.fatal = none →
    decode (packWord 0x05#8 p.code idx 0#8) = .command (.high p idx) ∧
    (8 ≤ idx.toNat → exec (.high p idx) s = .next { s with
      responses := s.responses ++ [.done], pc := s.pc + 1 }) ∧
    (idx.toNat < 8 → ∀ dv pv : Byte, dv = s.ddr.get p → pv = s.port.get p →
      (dirOut s.cfg.guardDdr dv (mask idx) = true → isLow s.cfg.guardPort pv (mask idx) = true → ∃ P : Bank,
        exec (.high p idx) s = .next { s with
          port := P
          busTrace := s.busTrace ++ [.rd (base p + 1#16) dv, .rd (base p + 2#16) pv, .wr (base p) (1#8 <<< idx.toNat)]
          responses := s.responses ++ [.done]
          pc := s.pc + 1 } ∧
        P.get p = pv ^^^ 1#8 <<< idx.toNat ∧ ∀ q, q ≠ p → P.get q = s.port.get q) ∧
      (¬ (dirOut s.cfg.guardDdr dv (mask idx) = true ∧ isLow s.cfg.guardPort pv (mask idx) = true) →
        exec (.high p idx) s = .next { s with
          busTrace := s.busTrace ++ [.rd (base p + 1#16) dv, .rd (base p + 2#16) pv]
          responses := s.responses ++ [.done]
          pc := s.pc + 1 }) ∧
      (s.cfg.guardDdr = .bit → s.cfg.guardPort = .bit → dv.getLsbD idx.toNat = true →
        ∃ t, exec (.high p idx) s = .next t ∧ (t.port.get p).getLsbD idx.toNat = true))

/-- `LOW` (rule R137): as `HIGH`, with the level test turned round; with both guards `bit` the toggle is made exactly
for an output pin whose output bit is 1, so the pin of an output ends low and `LOW` is idempotent. -/
def Obligations.LowTogglesAHighOutput : Prop :=
  ∀ (p : PortName) (idx : Byte) (s : State), s.fatal = none →
    decode (packWord 0x06#8 p.code idx 0#8) = .command (.low p idx) ∧
    (8 ≤ idx.toNat → exec (.low p idx) s = .next { s with
      responses := s.responses ++ [.done], pc := s.pc + 1 }) ∧
    (idx.toNat < 8 → ∀ dv pv : Byte, dv = s.ddr.get p → pv = s.port.get p →
      (dirOut s.cfg.guardDdr dv (mask idx) = true → isHigh s.cfg.guardPort pv (mask idx) = true → ∃ P : Bank,
        exec (.low p idx) s = .next { s with
          port := P
          busTrace := s.busTrace ++ [.rd (base p + 1#16) dv, .rd (base p + 2#16) pv, .wr (base p) (1#8 <<< idx.toNat)]
          responses := s.responses ++ [.done]
          pc := s.pc + 1 } ∧
        P.get p = pv ^^^ 1#8 <<< idx.toNat ∧ ∀ q, q ≠ p → P.get q = s.port.get q) ∧
      (¬ (dirOut s.cfg.guardDdr dv (mask idx) = true ∧ isHigh s.cfg.guardPort pv (mask idx) = true) →
        exec (.low p idx) s = .next { s with
          busTrace := s.busTrace ++ [.rd (base p + 1#16) dv, .rd (base p + 2#16) pv]
          responses := s.responses ++ [.done]
          pc := s.pc + 1 }) ∧
      (s.cfg.guardDdr = .bit → s.cfg.guardPort = .bit → ∃ t u,
        exec (.low p idx) s = .next t ∧ exec (.low p idx) t = .next u ∧ u.port = t.port ∧
        (t.port ≠ s.port ↔ dv.getLsbD idx.toNat = true ∧ pv.getLsbD idx.toNat = true) ∧
        (dv.getLsbD idx.toNat = true → (t.port.get p).getLsbD idx.toNat = false)))

/-- `HIGH` is idempotent under every setting of the guards (rule R139). -/
def Obligations.HighIsIdempotent : Prop :=
  ∀ (p : PortName) (idx : Byte) (s : State), s.fatal = none →
    ∃ t u, exec (.high p idx) s = .next t ∧ exec (.high p idx) t = .next u ∧ u.ddr = t.ddr ∧ u.port = t.port

/-- `HIGH` then `LOW` restores `port[p]` exactly when, before, not both the direction guard held and the level read
high; else `port[p]` ends with bit `i` flipped (rule R140).  An index of 8 or more changes nothing. -/
def Obligations.LowAfterHighRestoresExactlyWhen : Prop :=
  ∀ (p : PortName) (idx : Byte) (s : State), s.fatal = none →
    ∃ t u, exec (.high p idx) s = .next t ∧ exec (.low p idx) t = .next u ∧
      (8 ≤ idx.toNat → u.port = s.port) ∧
      (idx.toNat < 8 →
        (u.port.get p = s.port.get p ↔
          ¬ (dirOut s.cfg.guardDdr (s.ddr.get p) (mask idx) = true ∧
            isHigh s.cfg.guardPort (s.port.get p) (mask idx) = true)) ∧
        (dirOut s.cfg.guardDdr (s.ddr.get p) (mask idx) = true →
          isHigh s.cfg.guardPort (s.port.get p) (mask idx) = true →
          u.port.get p = s.port.get p ^^^ 1#8 <<< idx.toNat))

/-- On a port with one pin in use the four guard settings agree, and `HIGH` and `LOW` set and clear an output pin
(rule R141). -/
def Obligations.GuardsAgreeOnSinglePinPorts : Prop :=
  ∀ (p : PortName) (idx : Byte) (s : State), s.fatal = none → idx.toNat < 8 →
    (∀ j, j < 8 → j ≠ idx.toNat → (s.ddr.get p).getLsbD j = false ∧ (s.port.get p).getLsbD j = false) →
    (∀ g g' : Guard, ∀ s' : State, s' = { s with cfg := { s.cfg with guardDdr := g, guardPort := g' } } →
      ∃ t t' u u', exec (.high p idx) s = .next t ∧ exec (.high p idx) s' = .next t' ∧
        exec (.low p idx) s = .next u ∧ exec (.low p idx) s' = .next u' ∧
        t' = { t with cfg := s'.cfg } ∧ u' = { u with cfg := s'.cfg }) ∧
    ((s.ddr.get p).getLsbD idx.toNat = true → ∃ t u,
      exec (.high p idx) s = .next t ∧ exec (.low p idx) s = .next u ∧
      t.port.get p = 1#8 <<< idx.toNat ∧ u.port.get p = 0#8)

/-- The decision table of `HIGH` and `LOW` (rule R142): which of the two makes the toggle write. -/
def Obligations.HighLowDecisionTable : Prop :=
  ∀ (p : PortName) (idx : Byte) (s : State) (dir low : Bool), s.fatal = none → idx.toNat < 8 →
    dir = dirOut s.cfg.guardDdr (s.ddr.get p) (mask idx) →
    low = isLow s.cfg.guardPort (s.port.get p) (mask idx) →
    ∃ t u, exec (.high p idx) s = .next t ∧ exec (.low p idx) s = .next u ∧
      (BusEvent.wr (base p) (1#8 <<< idx.toNat) ∈ t.busTrace.drop s.busTrace.length ↔ dir = true ∧ low = true) ∧
      (BusEvent.wr (base p) (1#8 <<< idx.toNat) ∈ u.busTrace.drop s.busTrace.length ↔ dir = true ∧ low = false) ∧
      (t.port ≠ s.port ↔ dir = true ∧ low = true) ∧ (u.port ≠ s.port ↔ dir = true ∧ low = false)

/-- A direction change exposes the stored level (rule R238): `MODE` leaves `port[p]` alone, so the pin moves between the
pull-up and the driven level. -/
def Obligations.ModeExposesTheStoredLevel : Prop :=
  ∀ (p : PortName) (idx : Byte) (i : Fin 8) (s : State), s.fatal = none → idx.toNat = i.val →
    ∃ t u, exec (.mode p idx .output) s = .next t ∧ exec (.mode p idx .input) s = .next u ∧
      t.port = s.port ∧ u.port = s.port ∧
      (s.pad p i = .inPullup → t.pad p i = .outHigh) ∧ (s.pad p i = .inFloat → t.pad p i = .outLow) ∧
      (s.pad p i = .outHigh → u.pad p i = .inPullup) ∧ (s.pad p i = .outLow → u.pad p i = .inFloat)

/-- A term whose operand breaks its constraint (index of 8 or more in `MODE`, `OUT`, `IN`, `TGL`; count outside 1 to 7
in `ROT`) is an illegal command: it takes the fault entry and nothing else happens (rule R88 (d), (e); that a term the
decoder never gives does so is the model's reading, log entry 20). -/
def Obligations.IllegalOperandsTakeTheFault : Prop :=
  ∀ (i : Instr) (s : State), s.fatal = none → i.wf = false →
    exec i s = .next { s with
      fatal := some .illegalCommand
      responses := s.responses ++ [.fatal .illegalCommand] }

/-! ## Mixer commands -/

/-- `ROT` (rule R161): the byte of the formula, whose two parts never overlap, rotated right by `n` places bit by bit;
0x00 and 0xFF stay; a rotate by `8 - n` undoes it; by 4 swaps the nibbles.  For a count outside 1 to 7 there is no value
and the word raises `IllegalCommand`. -/
def Obligations.RotRotatesRight : Prop :=
  (∀ (b n : Byte) (s : State), s.fatal = none → 1 ≤ n.toNat → n.toNat ≤ 7 →
    decode (packWord 0x20#8 b n 0#8) = .command (.rot b n) ∧
    ∃ r : Byte, exec (.rot b n) s = .next { s with responses := s.responses ++ [.byte r], pc := s.pc + 1 } ∧
      rotate b n = some r ∧ r = (b >>> n.toNat) ||| (b <<< (8 - n.toNat)) ∧
      (b >>> n.toNat) &&& (b <<< (8 - n.toNat)) = 0#8 ∧
      (∀ j, j < 8 → r.getLsbD j = b.getLsbD ((j + n.toNat) % 8)) ∧
      (b = 0x00#8 → r = 0x00#8) ∧ (b = 0xFF#8 → r = 0xFF#8) ∧
      rotate r (8#8 - n) = some b ∧
      (n = 4#8 → r = (b.extractLsb' 0 4 ++ b.extractLsb' 4 4 : BitVec (4 + 4)))) ∧
  (∀ (b n : Byte) (s : State), s.fatal = none → n.toNat = 0 ∨ 8 ≤ n.toNat →
    rotate b n = none ∧
    present (packWord 0x20#8 b n 0#8) s = .next { s with
      fatal := some .illegalCommand
      responses := s.responses ++ [.fatal .illegalCommand] })

/-- `XOR` (rule R162): the difference of `or` and `and`, which never wraps and is the bitwise exclusive-or. -/
def Obligations.XorAnswersExclusiveOr : Prop :=
  ∀ (a b : Byte) (s : State), s.fatal = none →
    decode (packWord 0x21#8 a b 0#8) = .command (.xor a b) ∧
    exec (.xor a b) s = .next { s with responses := s.responses ++ [.byte (a ^^^ b)], pc := s.pc + 1 } ∧
    (a ||| b) - (a &&& b) = a ^^^ b ∧ (a &&& b).toNat ≤ (a ||| b).toNat

/-- `XSH` (rule R163): the formula and its bits, linearity over exclusive-or, and that it is two to one, with kernel
0x00 and 0x6B (so it takes 128 values and is no bijection). -/
def Obligations.XshDiffusesAndIsTwoToOne : Prop :=
  (∀ (a : Byte) (s : State), s.fatal = none →
    decode (packWord 0x22#8 a 0#8 0#8) = .command (.xsh a) ∧
    ∃ r : Byte, exec (.xsh a) s = .next { s with responses := s.responses ++ [.byte r], pc := s.pc + 1 } ∧
      r = a ^^^ (a >>> 3) ^^^ (a <<< 5) ^^^ (a >>> 4) ∧
      (∀ j, j < 8 → r.getLsbD j =
        (a.getLsbD j ^^ a.getLsbD (j + 3) ^^ (decide (5 ≤ j) && a.getLsbD (j - 5)) ^^ a.getLsbD (j + 4)))) ∧
  (∀ a b : Byte, xorShift (a ^^^ b) = xorShift a ^^^ xorShift b) ∧
  (∀ a b : Byte, xorShift a = xorShift b ↔ a = b ∨ a = b ^^^ 0x6B#8) ∧
  xorShift 0x00#8 = 0x00#8

/-- `PSHL` (rule R164): the formula and its bits; all of `change` takes part. -/
def Obligations.PshlPushesLeft : Prop :=
  ∀ (val change : Byte) (s : State), s.fatal = none →
    decode (packWord 0x23#8 val change 0#8) = .command (.pshl val change) ∧
    ∃ r : Byte, exec (.pshl val change) s = .next { s with
        responses := s.responses ++ [.byte r], pc := s.pc + 1 } ∧
      r = (val <<< 1) ^^^ change ^^^ val ∧
      r.getLsbD 0 = (change.getLsbD 0 ^^ val.getLsbD 0) ∧
      (∀ j, 1 ≤ j → j < 8 → r.getLsbD j = (val.getLsbD (j - 1) ^^ change.getLsbD j ^^ val.getLsbD j)) ∧
      r ^^^ (val <<< 1) = change ^^^ val

/-- `PSHR` (rule R165): the formula and its bits; of `change` only bit 0 takes part. -/
def Obligations.PshrPushesRight : Prop :=
  ∀ (val change : Byte) (s : State), s.fatal = none →
    decode (packWord 0x24#8 val change 0#8) = .command (.pshr val change) ∧
    ∃ r : Byte, exec (.pshr val change) s = .next { s with
        responses := s.responses ++ [.byte r], pc := s.pc + 1 } ∧
      r = (val >>> 1) ^^^ (change <<< 7) ^^^ val ∧
      r.getLsbD 7 = (change.getLsbD 0 ^^ val.getLsbD 7) ∧
      (∀ j, j < 7 → r.getLsbD j = (val.getLsbD (j + 1) ^^ val.getLsbD j)) ∧
      (change <<< 7 = if change.getLsbD 0 then 0x80#8 else 0x00#8) ∧
      r ^^^ (val >>> 1) = (change <<< 7) ^^^ val

/-- The properties of the mixer functions the source states (rule R166). -/
def Obligations.MixerFunctionProperties : Prop :=
  (∀ a b : Byte, xorBytes a b = xorBytes b a ∧ xorBytes a a = 0#8 ∧ xorBytes a b = a ^^^ b) ∧
  (∀ n : Byte, 1 ≤ n.toNat → n.toNat ≤ 7 → ∃ f : Byte → Byte, (∀ b, rotate b n = some (f b)) ∧ f.Bijective) ∧
  (∀ v c : Byte, xorBytes (pushLeft v c) (v <<< 1) = xorBytes c v ∧
    xorBytes (pushRight v c) (v >>> 1) = xorBytes (c <<< 7) v)

/-- A mixer command reads no state: its byte is the same at every state where it runs, and it leaves everything but the
response and `pc` as it was (rules R31, R160). -/
def Obligations.MixerCommandsReadNoState : Prop :=
  ∀ i : Instr, i.wf = true →
    ((∃ b n, i = .rot b n) ∨ (∃ a b, i = .xor a b) ∨ (∃ a, i = .xsh a) ∨ (∃ v c, i = .pshl v c) ∨
      (∃ v c, i = .pshr v c)) →
    ∃ r : Byte, ∀ s : State, s.fatal = none →
      exec i s = .next { s with responses := s.responses ++ [.byte r], pc := s.pc + 1 }

/-! ## Generator commands -/

/-- The mode check comes first (rule R180): in the other mode the fault is raised and nothing has been emitted, taken
or delayed; in its own mode the command raises no fault. -/
def Obligations.GeneratorModeCheck : Prop :=
  ∀ s : State, s.fatal = none →
    (s.cfg.genMode ≠ .motion → exec .genm s = .next { s with
      fatal := some .modeMismatch, responses := s.responses ++ [.fatal .modeMismatch] }) ∧
    (s.cfg.genMode ≠ .analog → exec .gena s = .next { s with
      fatal := some .modeMismatch, responses := s.responses ++ [.fatal .modeMismatch] }) ∧
    (s.cfg.genMode = .motion → ∃ t, exec .genm s = .next t ∧ t.fatal = none) ∧
    (s.cfg.genMode = .analog → ∃ t, exec .gena s = .next t ∧ t.fatal = none)

/-- `GENM` in its mode (rule R181): the five events in order, the six low bytes, the motion mix as the response, no
register touched.  That the six words are the first reading supplied, or free ones when none is, is the model's form of
the step's inputs (log entry 8). -/
def Obligations.GenmMixesItsReading : Prop :=
  ∀ (s : State) (x : SensorReading) (a b c d e f : Byte), s.fatal = none → s.cfg.genMode = .motion →
    x = nextReading s →
    a = BitVec.ofInt 8 x.accel0 → b = BitVec.ofInt 8 x.accel1 → c = BitVec.ofInt 8 x.accel2 →
    d = BitVec.ofInt 8 x.gyro0 → e = BitVec.ofInt 8 x.gyro1 → f = BitVec.ofInt 8 x.gyro2 →
    exec .genm s = .next { s with
      collabTrace := s.collabTrace ++ [.sensorBegin s.cfg.dpsScale s.cfg.gRange, .sensorReadGyro, .delay 1000,
        .sensorReadAccel, .delay 1000]
      responses := s.responses ++ [.byte (mixMotion a b c d e f)]
      pc := s.pc + 1
      sensorIn := s.sensorIn.tail
      draws := if s.sensorIn = [] then s.draws + 6 else s.draws } ∧
    (∀ y rest, s.sensorIn = y :: rest → x = y) ∧
    (s.sensorIn = [] → x.accel0 = Config.freeSensorWord s.draws ∧ x.gyro2 = Config.freeSensorWord (s.draws + 5))

/-- The motion mixing function (rule R182): its formulas, that it is linear over exclusive-or in the six bytes jointly,
and that six zeros give zero. -/
def Obligations.MotionMixFormulaAndLinearity : Prop :=
  (∀ a b c d e f bits1 bits2 : Byte,
    bits1 = ((a &&& 0x03#8) <<< 6) ^^^ ((c <<< 4) ^^^ ((b <<< 2) ^^^ (a ^^^ (c >>> 2)))) →
    bits2 = ((d &&& 0x03#8) <<< 6) ^^^ ((f <<< 4) ^^^ ((e <<< 2) ^^^ (d ^^^ (f >>> 2)))) →
    mixMotion a b c d e f = (bits1 ^^^ (bits1 >>> 3) ^^^ (bits1 <<< 5) ^^^ (bits1 >>> 4)) ^^^ bits2) ∧
  (∀ a b c d e f a' b' c' d' e' f' : Byte,
    mixMotion (a ^^^ a') (b ^^^ b') (c ^^^ c') (d ^^^ d') (e ^^^ e') (f ^^^ f') =
      mixMotion a b c d e f ^^^ mixMotion a' b' c' d' e' f') ∧
  mixMotion 0#8 0#8 0#8 0#8 0#8 0#8 = 0#8

/-- Only the low 8 bits of a sensor word count, whatever the width `W_SENSOR`, and every 6-tuple of bytes is that of
some reading (rule R183, decision D19). -/
def Obligations.SensorWordsCountByTheirLowByte : Prop :=
  (∀ (cfg : Config) (z : Int), ((sensorByte cfg z).toNat : Int) = z % 256) ∧
  (∀ (cfg : Config) (a b c d e f : Byte), ∃ x : SensorReading, motionResult cfg x = mixMotion a b c d e f ∧
    sensorByte cfg x.accel0 = a ∧ sensorByte cfg x.accel1 = b ∧ sensorByte cfg x.accel2 = c ∧
    sensorByte cfg x.gyro0 = d ∧ sensorByte cfg x.gyro1 = e ∧ sensorByte cfg x.gyro2 = f)

/-- The source's properties of the generators (rule R188): the wrong mode is fatal with no byte; six zero words give 0
and (1,0,0,0,0,0) gives 109.  The readings are supplied in the model's form of the step's inputs (log entry 8). -/
def Obligations.GeneratorSourceProperties : Prop :=
  ∀ s : State, s.fatal = none →
    (s.cfg.genMode = .motion → ∃ t, exec .gena s = .next t ∧ t.fatal = some .modeMismatch ∧
      ∀ v, t.responses ≠ s.responses ++ [.byte v]) ∧
    (s.cfg.genMode = .analog → ∃ t, exec .genm s = .next t ∧ t.fatal = some .modeMismatch ∧
      ∀ v, t.responses ≠ s.responses ++ [.byte v]) ∧
    (s.cfg.genMode = .motion → ∀ rest, s.sensorIn = ⟨0, 0, 0, 0, 0, 0⟩ :: rest →
      ∃ t, exec .genm s = .next t ∧ t.responses = s.responses ++ [.byte 0#8]) ∧
    (s.cfg.genMode = .motion → ∀ rest, s.sensorIn = ⟨1, 0, 0, 0, 0, 0⟩ :: rest →
      ∃ t, exec .genm s = .next t ∧ t.responses = s.responses ++ [.byte 109#8])

/-- `GENA` (rule R184): in its mode one opaque event, some byte as the response, and no register touched; in the other
mode the fault and no byte.  That `ddr`, `port` and the bus trace are unchanged rests on the premise of rule R184 itself
(decision D17, entry N20) that the analog pin driver touches no register: log entry 15, unsafe.  The count of draws is the
model's own field. -/
def Obligations.GenaAnswersSomeByte : Prop :=
  ∀ s : State, s.fatal = none →
    decode 0x31000000#32 = .command .gena ∧
    (s.cfg.genMode = .analog → ∃ (v : Byte) (n : Nat), exec .gena s = .next { s with
      collabTrace := s.collabTrace ++ [.analogSession]
      responses := s.responses ++ [.byte v]
      pc := s.pc + 1
      draws := n }) ∧
    (s.cfg.genMode = .motion → exec .gena s = .next { s with
      fatal := some .modeMismatch, responses := s.responses ++ [.fatal .modeMismatch] })

/-- Every draw is a new free value (log entry 9, the model's form of `draw8`): `GENA` and a PINx read under `pad_draw`
take the free byte of the present count and move the count on; any other command but `GENM` leaves the count. -/
def Obligations.EveryDrawIsFresh : Prop :=
  ∀ s : State, s.fatal = none →
    (s.cfg.genMode = .analog → ∃ t, exec .gena s = .next t ∧ t.draws = s.draws + 1 ∧
      t.responses = s.responses ++ [.byte (Config.freeByte s.draws)]) ∧
    (s.cfg.pinRead = .padDraw → ∀ p, ∃ t, exec (.rd (base p)) s = .next t ∧ t.draws = s.draws + 1 ∧
      t.responses = s.responses ++ [.byte ((s.port.get p &&& s.ddr.get p) |||
        (Config.freeByte s.draws &&& ~~~(s.ddr.get p)))]) ∧
    (∀ i t, i ≠ .gena → i ≠ .genm → (∀ p, i ≠ .rd (base p)) → exec i s = .next t → t.draws = s.draws)

/-! ## Frames -/

/-- Commands that store nothing (`ACQ`, `PIN`, `RD`, the mixer and the generator commands): every byte of the register
space and both banks are as they were, and the parameters and the program; the bus trace is too, but for `RD`; the
collaborator trace and the readings are too, but for the generators; the latch is too for a well-formed command, but
for the generators.  For `GENA` all of this rests on the premise of rule R184 and entry N20 that the analog pin driver
touches no register: log entry 15, unsafe. -/
def Obligations.NonStoringCommandsFrame : Prop :=
  ∀ (i : Instr) (s t : State),
    ((∃ p, i = .acq p) ∨ (∃ p idx, i = .pin p idx) ∨ (∃ a, i = .rd a) ∨ (∃ b n, i = .rot b n) ∨
      (∃ a b, i = .xor a b) ∨ (∃ a, i = .xsh a) ∨ (∃ v c, i = .pshl v c) ∨ (∃ v c, i = .pshr v c) ∨
      i = .genm ∨ i = .gena) →
    exec i s = .next t →
    (∀ a, t.peek a = s.peek a) ∧ t.ddr = s.ddr ∧ t.port = s.port ∧ t.cfg = s.cfg ∧ t.prog = s.prog ∧
    ((∀ a, i ≠ .rd a) → t.busTrace = s.busTrace) ∧
    (i ≠ .genm → i ≠ .gena → t.collabTrace = s.collabTrace ∧ t.sensorIn = s.sensorIn) ∧
    (i.wf = true → i ≠ .genm → i ≠ .gena → t.fatal = s.fatal)

/-- The direction commands `MODE`, `OUT` and `IN` store to DDRx of their port, at `base p + 1`, and nowhere else: every
other byte of the register space is as it was, and all of `port`, the parameters, the program, the readings and the
draws; the latch changes only by the reserved index. -/
def Obligations.DirectionCommandsFrame : Prop :=
  ∀ (i : Instr) (p : PortName) (idx : Byte) (s t : State),
    ((∃ m, i = .mode p idx m) ∨ i = .out p idx ∨ i = .inp p idx) → exec i s = .next t →
    (∀ a, a ≠ base p + 1#16 → t.peek a = s.peek a) ∧ t.port = s.port ∧
    (∀ q, q ≠ p → t.ddr.get q = s.ddr.get q) ∧
    t.cfg = s.cfg ∧ t.prog = s.prog ∧ t.collabTrace = s.collabTrace ∧ t.sensorIn = s.sensorIn ∧ t.draws = s.draws ∧
    (idx.toNat < 8 → t.fatal = s.fatal)

/-- The state commands `TGL`, `HIGH` and `LOW` store to PINx of their port, at `base p`, which is the byte seen at PINx
and PORTx: every other byte of the register space is as it was, and all of `ddr`, the parameters, the program, the
readings and the draws; the latch changes only by the reserved index of `TGL`. -/
def Obligations.StateCommandsFrame : Prop :=
  ∀ (i : Instr) (p : PortName) (idx : Byte) (s t : State),
    (i = .tgl p idx ∨ i = .high p idx ∨ i = .low p idx) → exec i s = .next t →
    (∀ a, a ≠ base p → a ≠ base p + 2#16 → t.peek a = s.peek a) ∧ t.ddr = s.ddr ∧
    (∀ q, q ≠ p → t.port.get q = s.port.get q) ∧
    (∀ j, j ≠ idx.toNat → (t.port.get p).getLsbD j = (s.port.get p).getLsbD j) ∧
    t.cfg = s.cfg ∧ t.prog = s.prog ∧ t.collabTrace = s.collabTrace ∧ t.sensorIn = s.sensorIn ∧ t.draws = s.draws ∧
    ((i = .tgl p idx → idx.toNat < 8) → t.fatal = s.fatal)

/-- `WR` stores to the register its address decodes to and nowhere else; PINx and PORTx of a port are one stored byte;
an unmapped address stores nothing. -/
def Obligations.WrFrame : Prop :=
  ∀ (addr : Addr) (data : Byte) (s t : State), exec (.wr addr data) s = .next t →
    (decodeAddr addr = none → ∀ a, t.peek a = s.peek a) ∧
    (∀ r, decodeAddr addr = some r →
      (r.kind = .ddr → ∀ a, a ≠ addr → t.peek a = s.peek a) ∧
      (r.kind ≠ .ddr → ∀ a, a ≠ base r.port → a ≠ base r.port + 2#16 → t.peek a = s.peek a)) ∧
    t.cfg = s.cfg ∧ t.prog = s.prog ∧ t.fatal = s.fatal ∧ t.collabTrace = s.collabTrace ∧
    t.sensorIn = s.sensorIn ∧ t.draws = s.draws

/-! ## The whole machine -/

/-- No step changes the parameters or the program, and a step only adds to the records (rules R28, R60, R66). -/
def Obligations.ParametersStandAndRecordsGrow : Prop :=
  ∀ s t : State, step s = .next t →
    t.cfg = s.cfg ∧ t.prog = s.prog ∧ s.responses <+: t.responses ∧ s.busTrace <+: t.busTrace ∧
    s.collabTrace <+: t.collabTrace ∧ s.draws ≤ t.draws

/-- The ports are independent (rule R21): a command whose accesses go to no register of port `p` leaves the registers of
`p` as they were, and does the same whatever they hold.  The second clause compares two runs: that `GENA`, a read of PINx
under `pad_draw` and a `GENM` without a supplied reading take the same free bytes in both is the model's choice (log
entries 8 and 9, DESIGN CHOICE, unsafe for a comparison of two runs).  For `GENA` both clauses rest on log entry 15, the
premise of rule R184 (unsafe). -/
def Obligations.PortsAreIndependent : Prop :=
  ∀ (i : Instr) (p : PortName) (s t : State), touches i ≠ some p → exec i s = .next t →
    t.ddr.get p = s.ddr.get p ∧ t.port.get p = s.port.get p ∧
    ∀ x y : Byte, exec i { s with ddr := s.ddr.set p x, port := s.port.set p y } =
      .next { t with ddr := t.ddr.set p x, port := t.port.set p y }

/-- Invariant: the record of responses agrees with `pc` and the latch.  One response without a fault for each command
`pc` counts; once a cause is latched, only that cause (rules R13, R30, R206, R207). -/
def Obligations.StepKeepsResponsesAgreeing : Prop :=
  ∀ s t : State, s.ResponsesAgree → step s = .next t → t.ResponsesAgree

/-- The record of responses agrees at every launch state, the model's reset state among them (rules R30, R233). -/
def Obligations.ResponsesAgreeAtLaunch : Prop :=
  (∀ s : State, s.Launch → s.ResponsesAgree) ∧ State.reset.ResponsesAgree

/-- Invariant: the bus trace explains the registers.  From the launch banks `d` and `q`, every recorded read returned
what the recorded writes before it determine, and the recorded writes in order give `ddr` and `port` (rules R57, R58,
R60, R61).  For a step of `GENA` it rests on log entry 15, the premise of rule R184 (unsafe). -/
def Obligations.StepKeepsTheTraceExplaining : Prop :=
  ∀ (d q : Bank) (s t : State), s.TraceExplains d q → step s = .next t → t.TraceExplains d q

/-- The bus trace explains the registers at every launch state, whatever bytes the reset left (rules R33, R61). -/
def Obligations.TraceExplainsAtLaunch : Prop :=
  (∀ s : State, s.Launch → s.TraceExplains s.ddr s.port) ∧ State.reset.TraceExplains Bank.zero Bank.zero

/-- The launch states are what the reset event leaves: every state it leaves is one, under `P_RESET = zero` with every
register 0x00, and every launch state is left by it (rules R33, R230, R233).  That it empties the records and leaves the
program and the readings is the model's choice (log entry 19). -/
def Obligations.LaunchStatesAreWhatResetLeaves : Prop :=
  (∀ (d q : Bank) (s : State), (resetEvent d q s).Launch) ∧
  (∀ s : State, s.Launch → ∃ d q : Bank, resetEvent d q s = s) ∧
  (∀ s : State, s.Launch → s.cfg.resetRule = .zero → ∀ p, s.ddr.get p = 0#8 ∧ s.port.get p = 0#8)
end

