-- ==== Sys2Proof/Laws/Bank.lean ====
section
/-! SUPPORT. The laws of a bank: a port reads back what was last set for it, and no other port is touched. -/

namespace Sys2Proof.Machine

theorem Bank.get_set (x : Bank) (p q : PortName) (v : Byte) :
    (x.set p v).get q = if q = p then v else x.get q := by
  cases p <;> cases q <;> rfl

@[simp] theorem Bank.get_set_self (x : Bank) (p : PortName) (v : Byte) : (x.set p v).get p = v := by
  rw [Bank.get_set, if_pos rfl]

theorem Bank.get_set_ne (x : Bank) {p q : PortName} (v : Byte) (h : q ≠ p) : (x.set p v).get q = x.get q := by
  rw [Bank.get_set, if_neg h]

theorem Bank.ext_get {x y : Bank} (h : ∀ p, x.get p = y.get p) : x = y := by
  cases x; cases y
  have ha := h .a; have hb := h .b; have hc := h .c; have hd := h .d; have he := h .e; have hf := h .f
  have hg := h .g; have hh := h .h; have hj := h .j; have hk := h .k; have hl := h .l
  simp only [Bank.get] at *
  simp only [*]

@[simp] theorem Bank.set_get (x : Bank) (p : PortName) : x.set p (x.get p) = x := by
  cases p <;> rfl

@[simp] theorem Bank.set_set (x : Bank) (p : PortName) (v w : Byte) : (x.set p v).set p w = x.set p w := by
  cases p <;> rfl

@[simp] theorem Bank.zero_get (p : PortName) : Bank.zero.get p = 0#8 := by
  cases p <;> rfl

theorem Bank.set_comm (x : Bank) {p q : PortName} (h : p ≠ q) (v w : Byte) :
    (x.set p v).set q w = (x.set q w).set p v := by
  cases p <;> cases q <;> first | rfl | exact absurd rfl h

end Sys2Proof.Machine
end

