-- ==== Sys2Proof/Laws/Decode.lean ====
section
/-! SUPPORT. The fields of a packed word, and the codes of ports and modes. -/

namespace Sys2Proof

@[simp] theorem fieldOp_packWord (op fa fb fc : Byte) : fieldOp (packWord op fa fb fc) = op := by
  ext i hi
  simp [fieldOp, packWord]
  grind

@[simp] theorem fieldA_packWord (op fa fb fc : Byte) : fieldA (packWord op fa fb fc) = fa := by
  ext i hi
  simp [fieldA, packWord]
  grind

@[simp] theorem fieldB_packWord (op fa fb fc : Byte) : fieldB (packWord op fa fb fc) = fb := by
  ext i hi
  simp [fieldB, packWord]
  grind

@[simp] theorem fieldC_packWord (op fa fb fc : Byte) : fieldC (packWord op fa fb fc) = fc := by
  ext i hi
  simp [fieldC, packWord]
  grind

/-- A word is made of its four fields (rule R80). -/
theorem packWord_fields (w : Word) : packWord (fieldOp w) (fieldA w) (fieldB w) (fieldC w) = w := by
  ext i hi
  simp [fieldOp, fieldA, fieldB, fieldC, packWord]
  grind

@[simp] theorem decode_packWord (op fa fb fc : Byte) : decode (packWord op fa fb fc) = decodeFields op fa fb fc := by
  simp [decode]

/-- An address is made of its two bytes (rule R85). -/
@[simp] theorem addrHi_append_addrLo (a : Addr) : (addrHi a ++ addrLo a : BitVec 16) = a := by
  ext i hi
  simp [addrHi, addrLo]
  grind

@[simp] theorem addrHi_append (fa fb : Byte) : addrHi (fa ++ fb : BitVec 16) = fa := by
  ext i hi
  simp [addrHi]
  grind

@[simp] theorem addrLo_append (fa fb : Byte) : addrLo (fa ++ fb : BitVec 16) = fb := by
  ext i hi
  simp [addrLo]
  grind

@[simp] theorem PortName.ofCode_code (p : PortName) : PortName.ofCode p.code = some p := by
  cases p <;> rfl

/-- A port code that has a name is the code of that name (rule R82). -/
theorem PortName.code_of_ofCode {v : Byte} {p : PortName} (h : PortName.ofCode v = some p) : p.code = v := by
  unfold PortName.ofCode at h
  split at h <;> first | (cases h; rfl) | cases h

/-- A port code has a name exactly when it is 10 or less (rules R82, R88). -/
theorem PortName.ofCode_isSome (v : Byte) : (PortName.ofCode v).isSome = decide (v.toNat ≤ 10) := by
  revert v; decide

@[simp] theorem IOMode.ofCode_code (m : IOMode) : IOMode.ofCode m.code = some m := by
  cases m <;> rfl

theorem IOMode.code_of_ofCode {v : Byte} {m : IOMode} (h : IOMode.ofCode v = some m) : m.code = v := by
  unfold IOMode.ofCode at h
  split at h <;> first | (cases h; rfl) | cases h

/-- An `fc` field names a mode exactly when it is 0 or 1 (rules R84, R94). -/
theorem IOMode.ofCode_isSome (v : Byte) : (IOMode.ofCode v).isSome = decide (v.toNat ≤ 1) := by
  revert v; decide

/-- What `ensure` answers a command with (rule R94). -/
theorem ensure_command {ok : Bool} {why : Reserved} {d : Decoded} {i : Instr} :
    ensure ok why d = .command i ↔ ok = true ∧ d = .command i := by
  cases ok <;> simp [ensure]

/-- What `withPort` answers a command with (rule R94). -/
theorem withPort_command {fa : Byte} {k : PortName → Decoded} {i : Instr} :
    withPort fa k = .command i ↔ ∃ p, fa = p.code ∧ k p = .command i := by
  unfold withPort
  constructor
  · intro h
    split at h
    · next p hp => exact ⟨p, (PortName.code_of_ofCode hp).symm, h⟩
    · cases h
  · rintro ⟨p, rfl, h⟩
    simpa using h

end Sys2Proof
end

