-- ==== Sys2Proof/Laws/Mixer.lean ====
section
/-! SUPPORT. Bytes under the mixer's operations. -/

namespace Sys2Proof.Machine

/-- `rotate` for a count of 1 to 7 (rule R161). -/
theorem rotate_of_count {b n : Byte} (h1 : 1 ≤ n.toNat) (h7 : n.toNat ≤ 7) :
    rotate b n = some ((b >>> n.toNat) ||| (b <<< (8 - n.toNat))) := if_pos ⟨h1, h7⟩

/-- `rotate` has no value for any other count (rule R161 (a)). -/
theorem rotate_eq_none {b n : Byte} : rotate b n = none ↔ ¬ (1 ≤ n.toNat ∧ n.toNat ≤ 7) := by
  unfold rotate
  split <;> simp [*]

@[simp] theorem answerByte_some (v : Byte) (s : State) : answerByte (some v) s = complete (.byte v) s := rfl
@[simp] theorem answerByte_none (s : State) : answerByte none s = raiseFatal .illegalCommand s := rfl

/-- `or` is the sum of exclusive-or and `and`, without a carry (rule R162). -/
theorem xor_add_and (a b : Byte) : (a ^^^ b) + (a &&& b) = a ||| b := by
  have h : (a ^^^ b) &&& (a &&& b) = 0#8 := by
    ext i hi
    simp only [BitVec.getElem_and, BitVec.getElem_xor, BitVec.getElem_zero]
    cases a[i] <;> cases b[i] <;> rfl
  rw [BitVec.add_eq_or_of_and_eq_zero _ _ h]
  ext i hi
  simp only [BitVec.getElem_or, BitVec.getElem_and, BitVec.getElem_xor]
  cases a[i] <;> cases b[i] <;> rfl

/-- `xorBytes` is the bitwise exclusive-or (rule R162). -/
theorem xorBytes_eq (a b : Byte) : xorBytes a b = a ^^^ b := by
  unfold xorBytes
  rw [← xor_add_and a b]
  bv_omega

end Sys2Proof.Machine
end

