-- ==== Sys2Proof/Laws/Operands.lean ====
section
/-! SUPPORT. Register addresses and their decoding invert each other; sensor words keep their low byte. -/

namespace Sys2Proof.Machine

/-- Every register decodes from its own address (rule R52). -/
@[simp] theorem decodeAddr_addr (r : Reg) : decodeAddr r.addr = some r := by
  obtain ⟨p, k⟩ := r
  cases p <;> cases k <;> decide

/-- The 268 addresses up to the end of the map, one by one (rule R51). -/
theorem addr_of_decodeAddr_low :
    ∀ n : Fin 0x10C, ∀ r, decodeAddr (BitVec.ofNat 16 n) = some r → r.addr = BitVec.ofNat 16 n := by
  intro n r h
  have key : ∀ n : Fin 0x10C, (match decodeAddr (BitVec.ofNat 16 n) with
      | some r => decide (r.addr = BitVec.ofNat 16 n)
      | none => true) = true := by decide +kernel
  have := key n
  rw [h] at this
  exact of_decide_eq_true this

/-- An address that decodes is the address of the register it decodes to (rule R52). -/
theorem addr_of_decodeAddr {a : Addr} {r : Reg} (h : decodeAddr a = some r) : r.addr = a := by
  by_cases h1 : a.toNat < 0x10C
  · have := addr_of_decodeAddr_low ⟨a.toNat, h1⟩ r
    simp only [BitVec.ofNat_toNat, BitVec.setWidth_eq] at this
    exact this h
  · unfold decodeAddr at h
    rw [if_neg (by omega), if_neg (by omega)] at h
    cases h

theorem addr_injective {r r' : Reg} (h : r.addr = r'.addr) : r = r' := by
  have h1 := decodeAddr_addr r
  rw [h, decodeAddr_addr] at h1
  exact (Option.some.inj h1).symm

/-- The low byte of a sensor word does not depend on the width `W_SENSOR`, which is 8 or more (rule R183). -/
theorem low8_sensorWord (n : Nat) (z : Int) : low8 (sensorWord (8 + n) z) = low8 z := by
  unfold low8 sensorWord
  apply BitVec.eq_of_toInt_eq
  simp only [BitVec.toInt_ofInt]
  rw [Int.bmod_bmod_of_dvd]
  exact_mod_cast Nat.pow_dvd_pow 2 (Nat.le_add_right 8 n)

/-- A mask is never zero for an index of 0 to 7 (rule R87). -/
theorem mask_ne_zero {idx : Byte} (h : idx.toNat < 8) : mask idx ≠ 0#8 := by
  unfold mask
  generalize idx.toNat = n at h
  interval_cases n <;> decide

/-- The bits of a mask (rules R9, R87). -/
theorem mask_getLsbD {idx : Byte} (h : idx.toNat < 8) (j : Nat) :
    (mask idx).getLsbD j = decide (j = idx.toNat) := by
  unfold mask
  generalize idx.toNat = n at h
  by_cases hj : j < 8
  · interval_cases n <;> interval_cases j <;> rfl
  · rw [BitVec.getLsbD_of_ge _ _ (by omega)]
    simp; omega

end Sys2Proof.Machine
end

