-- ==== Sys2Proof/Laws/State.lean ====
section
/-! SUPPORT. What each update of the state leaves in each field: one lemma per field per update. -/

namespace Sys2Proof.Machine

@[simp] theorem State.setDdr_cfg (s : State) (p : PortName) (v : Byte) : (s.setDdr p v).cfg = s.cfg := rfl
@[simp] theorem State.setDdr_prog (s : State) (p : PortName) (v : Byte) : (s.setDdr p v).prog = s.prog := rfl
@[simp] theorem State.setDdr_pc (s : State) (p : PortName) (v : Byte) : (s.setDdr p v).pc = s.pc := rfl
@[simp] theorem State.setDdr_ddr (s : State) (p : PortName) (v : Byte) : (s.setDdr p v).ddr = s.ddr.set p v := rfl
@[simp] theorem State.setDdr_port (s : State) (p : PortName) (v : Byte) : (s.setDdr p v).port = s.port := rfl
@[simp] theorem State.setDdr_fatal (s : State) (p : PortName) (v : Byte) : (s.setDdr p v).fatal = s.fatal := rfl
@[simp] theorem State.setDdr_responses (s : State) (p : PortName) (v : Byte) : (s.setDdr p v).responses = s.responses := rfl
@[simp] theorem State.setDdr_busTrace (s : State) (p : PortName) (v : Byte) : (s.setDdr p v).busTrace = s.busTrace := rfl
@[simp] theorem State.setDdr_collabTrace (s : State) (p : PortName) (v : Byte) : (s.setDdr p v).collabTrace = s.collabTrace := rfl
@[simp] theorem State.setDdr_sensorIn (s : State) (p : PortName) (v : Byte) : (s.setDdr p v).sensorIn = s.sensorIn := rfl
@[simp] theorem State.setDdr_draws (s : State) (p : PortName) (v : Byte) : (s.setDdr p v).draws = s.draws := rfl

@[simp] theorem State.setPort_cfg (s : State) (p : PortName) (v : Byte) : (s.setPort p v).cfg = s.cfg := rfl
@[simp] theorem State.setPort_prog (s : State) (p : PortName) (v : Byte) : (s.setPort p v).prog = s.prog := rfl
@[simp] theorem State.setPort_pc (s : State) (p : PortName) (v : Byte) : (s.setPort p v).pc = s.pc := rfl
@[simp] theorem State.setPort_ddr (s : State) (p : PortName) (v : Byte) : (s.setPort p v).ddr = s.ddr := rfl
@[simp] theorem State.setPort_port (s : State) (p : PortName) (v : Byte) : (s.setPort p v).port = s.port.set p v := rfl
@[simp] theorem State.setPort_fatal (s : State) (p : PortName) (v : Byte) : (s.setPort p v).fatal = s.fatal := rfl
@[simp] theorem State.setPort_responses (s : State) (p : PortName) (v : Byte) : (s.setPort p v).responses = s.responses := rfl
@[simp] theorem State.setPort_busTrace (s : State) (p : PortName) (v : Byte) : (s.setPort p v).busTrace = s.busTrace := rfl
@[simp] theorem State.setPort_collabTrace (s : State) (p : PortName) (v : Byte) : (s.setPort p v).collabTrace = s.collabTrace := rfl
@[simp] theorem State.setPort_sensorIn (s : State) (p : PortName) (v : Byte) : (s.setPort p v).sensorIn = s.sensorIn := rfl
@[simp] theorem State.setPort_draws (s : State) (p : PortName) (v : Byte) : (s.setPort p v).draws = s.draws := rfl

@[simp] theorem State.respond_cfg (s : State) (r : Response) : (s.respond r).cfg = s.cfg := rfl
@[simp] theorem State.respond_prog (s : State) (r : Response) : (s.respond r).prog = s.prog := rfl
@[simp] theorem State.respond_pc (s : State) (r : Response) : (s.respond r).pc = s.pc := rfl
@[simp] theorem State.respond_ddr (s : State) (r : Response) : (s.respond r).ddr = s.ddr := rfl
@[simp] theorem State.respond_port (s : State) (r : Response) : (s.respond r).port = s.port := rfl
@[simp] theorem State.respond_fatal (s : State) (r : Response) : (s.respond r).fatal = s.fatal := rfl
@[simp] theorem State.respond_responses (s : State) (r : Response) : (s.respond r).responses = s.responses ++ [r] := rfl
@[simp] theorem State.respond_busTrace (s : State) (r : Response) : (s.respond r).busTrace = s.busTrace := rfl
@[simp] theorem State.respond_collabTrace (s : State) (r : Response) : (s.respond r).collabTrace = s.collabTrace := rfl
@[simp] theorem State.respond_sensorIn (s : State) (r : Response) : (s.respond r).sensorIn = s.sensorIn := rfl
@[simp] theorem State.respond_draws (s : State) (r : Response) : (s.respond r).draws = s.draws := rfl

@[simp] theorem State.advance_cfg (s : State) : (s.advance).cfg = s.cfg := rfl
@[simp] theorem State.advance_prog (s : State) : (s.advance).prog = s.prog := rfl
@[simp] theorem State.advance_pc (s : State) : (s.advance).pc = s.pc + 1 := rfl
@[simp] theorem State.advance_ddr (s : State) : (s.advance).ddr = s.ddr := rfl
@[simp] theorem State.advance_port (s : State) : (s.advance).port = s.port := rfl
@[simp] theorem State.advance_fatal (s : State) : (s.advance).fatal = s.fatal := rfl
@[simp] theorem State.advance_responses (s : State) : (s.advance).responses = s.responses := rfl
@[simp] theorem State.advance_busTrace (s : State) : (s.advance).busTrace = s.busTrace := rfl
@[simp] theorem State.advance_collabTrace (s : State) : (s.advance).collabTrace = s.collabTrace := rfl
@[simp] theorem State.advance_sensorIn (s : State) : (s.advance).sensorIn = s.sensorIn := rfl
@[simp] theorem State.advance_draws (s : State) : (s.advance).draws = s.draws := rfl

@[simp] theorem State.logBus_cfg (s : State) (e : BusEvent) : (s.logBus e).cfg = s.cfg := rfl
@[simp] theorem State.logBus_prog (s : State) (e : BusEvent) : (s.logBus e).prog = s.prog := rfl
@[simp] theorem State.logBus_pc (s : State) (e : BusEvent) : (s.logBus e).pc = s.pc := rfl
@[simp] theorem State.logBus_ddr (s : State) (e : BusEvent) : (s.logBus e).ddr = s.ddr := rfl
@[simp] theorem State.logBus_port (s : State) (e : BusEvent) : (s.logBus e).port = s.port := rfl
@[simp] theorem State.logBus_fatal (s : State) (e : BusEvent) : (s.logBus e).fatal = s.fatal := rfl
@[simp] theorem State.logBus_responses (s : State) (e : BusEvent) : (s.logBus e).responses = s.responses := rfl
@[simp] theorem State.logBus_busTrace (s : State) (e : BusEvent) : (s.logBus e).busTrace = s.busTrace ++ [e] := rfl
@[simp] theorem State.logBus_collabTrace (s : State) (e : BusEvent) : (s.logBus e).collabTrace = s.collabTrace := rfl
@[simp] theorem State.logBus_sensorIn (s : State) (e : BusEvent) : (s.logBus e).sensorIn = s.sensorIn := rfl
@[simp] theorem State.logBus_draws (s : State) (e : BusEvent) : (s.logBus e).draws = s.draws := rfl

@[simp] theorem State.emit_cfg (s : State) (e : CollabEvent) : (s.emit e).cfg = s.cfg := rfl
@[simp] theorem State.emit_prog (s : State) (e : CollabEvent) : (s.emit e).prog = s.prog := rfl
@[simp] theorem State.emit_pc (s : State) (e : CollabEvent) : (s.emit e).pc = s.pc := rfl
@[simp] theorem State.emit_ddr (s : State) (e : CollabEvent) : (s.emit e).ddr = s.ddr := rfl
@[simp] theorem State.emit_port (s : State) (e : CollabEvent) : (s.emit e).port = s.port := rfl
@[simp] theorem State.emit_fatal (s : State) (e : CollabEvent) : (s.emit e).fatal = s.fatal := rfl
@[simp] theorem State.emit_responses (s : State) (e : CollabEvent) : (s.emit e).responses = s.responses := rfl
@[simp] theorem State.emit_busTrace (s : State) (e : CollabEvent) : (s.emit e).busTrace = s.busTrace := rfl
@[simp] theorem State.emit_collabTrace (s : State) (e : CollabEvent) : (s.emit e).collabTrace = s.collabTrace ++ [e] := rfl
@[simp] theorem State.emit_sensorIn (s : State) (e : CollabEvent) : (s.emit e).sensorIn = s.sensorIn := rfl
@[simp] theorem State.emit_draws (s : State) (e : CollabEvent) : (s.emit e).draws = s.draws := rfl

@[simp] theorem State.latch_cfg (s : State) (c : Cause) : (s.latch c).cfg = s.cfg := rfl
@[simp] theorem State.latch_prog (s : State) (c : Cause) : (s.latch c).prog = s.prog := rfl
@[simp] theorem State.latch_pc (s : State) (c : Cause) : (s.latch c).pc = s.pc := rfl
@[simp] theorem State.latch_ddr (s : State) (c : Cause) : (s.latch c).ddr = s.ddr := rfl
@[simp] theorem State.latch_port (s : State) (c : Cause) : (s.latch c).port = s.port := rfl
@[simp] theorem State.latch_fatal (s : State) (c : Cause) : (s.latch c).fatal = some c := rfl
@[simp] theorem State.latch_responses (s : State) (c : Cause) : (s.latch c).responses = s.responses := rfl
@[simp] theorem State.latch_busTrace (s : State) (c : Cause) : (s.latch c).busTrace = s.busTrace := rfl
@[simp] theorem State.latch_collabTrace (s : State) (c : Cause) : (s.latch c).collabTrace = s.collabTrace := rfl
@[simp] theorem State.latch_sensorIn (s : State) (c : Cause) : (s.latch c).sensorIn = s.sensorIn := rfl
@[simp] theorem State.latch_draws (s : State) (c : Cause) : (s.latch c).draws = s.draws := rfl

@[simp] theorem State.takeDraws_cfg (s : State) (n : Nat) : (s.takeDraws n).cfg = s.cfg := rfl
@[simp] theorem State.takeDraws_prog (s : State) (n : Nat) : (s.takeDraws n).prog = s.prog := rfl
@[simp] theorem State.takeDraws_pc (s : State) (n : Nat) : (s.takeDraws n).pc = s.pc := rfl
@[simp] theorem State.takeDraws_ddr (s : State) (n : Nat) : (s.takeDraws n).ddr = s.ddr := rfl
@[simp] theorem State.takeDraws_port (s : State) (n : Nat) : (s.takeDraws n).port = s.port := rfl
@[simp] theorem State.takeDraws_fatal (s : State) (n : Nat) : (s.takeDraws n).fatal = s.fatal := rfl
@[simp] theorem State.takeDraws_responses (s : State) (n : Nat) : (s.takeDraws n).responses = s.responses := rfl
@[simp] theorem State.takeDraws_busTrace (s : State) (n : Nat) : (s.takeDraws n).busTrace = s.busTrace := rfl
@[simp] theorem State.takeDraws_collabTrace (s : State) (n : Nat) : (s.takeDraws n).collabTrace = s.collabTrace := rfl
@[simp] theorem State.takeDraws_sensorIn (s : State) (n : Nat) : (s.takeDraws n).sensorIn = s.sensorIn := rfl
@[simp] theorem State.takeDraws_draws (s : State) (n : Nat) : (s.takeDraws n).draws = s.draws + n := rfl

@[simp] theorem State.leaveReadings_cfg (s : State) (rest : List SensorReading) : (s.leaveReadings rest).cfg = s.cfg := rfl
@[simp] theorem State.leaveReadings_prog (s : State) (rest : List SensorReading) : (s.leaveReadings rest).prog = s.prog := rfl
@[simp] theorem State.leaveReadings_pc (s : State) (rest : List SensorReading) : (s.leaveReadings rest).pc = s.pc := rfl
@[simp] theorem State.leaveReadings_ddr (s : State) (rest : List SensorReading) : (s.leaveReadings rest).ddr = s.ddr := rfl
@[simp] theorem State.leaveReadings_port (s : State) (rest : List SensorReading) : (s.leaveReadings rest).port = s.port := rfl
@[simp] theorem State.leaveReadings_fatal (s : State) (rest : List SensorReading) : (s.leaveReadings rest).fatal = s.fatal := rfl
@[simp] theorem State.leaveReadings_responses (s : State) (rest : List SensorReading) : (s.leaveReadings rest).responses = s.responses := rfl
@[simp] theorem State.leaveReadings_busTrace (s : State) (rest : List SensorReading) : (s.leaveReadings rest).busTrace = s.busTrace := rfl
@[simp] theorem State.leaveReadings_collabTrace (s : State) (rest : List SensorReading) : (s.leaveReadings rest).collabTrace = s.collabTrace := rfl
@[simp] theorem State.leaveReadings_sensorIn (s : State) (rest : List SensorReading) : (s.leaveReadings rest).sensorIn = rest := rfl
@[simp] theorem State.leaveReadings_draws (s : State) (rest : List SensorReading) : (s.leaveReadings rest).draws = s.draws := rfl

end Sys2Proof.Machine
end

