-- ==== Sys2Proof/Laws/Ops.lean ====
section
/-! SUPPORT. What each shared operation can do, said once: reads, writes, the ends of a command, the latch. -/

namespace Sys2Proof.Machine

/-- A read of DDRx (rule R57). -/
@[simp] theorem memRead_ddrr (p : PortName) (s : State) :
    memRead (ddrr p) s = (s.ddr.get p, s.logBus (.rd (ddrr p).addr (s.ddr.get p))) := rfl

/-- A read of PORTx (rule R57). -/
@[simp] theorem memRead_portr (p : PortName) (s : State) :
    memRead (portr p) s = (s.port.get p, s.logBus (.rd (portr p).addr (s.port.get p))) := rfl

/-- A read of PINx under the default parameter (rule R57). -/
theorem memRead_pinr_outputState (p : PortName) {s : State} (h : s.cfg.pinRead = .outputState) :
    memRead (pinr p) s = (s.port.get p, s.logBus (.rd (pinr p).addr (s.port.get p))) := by
  simp [memRead, readValue, pinr, State.stored, h]

/-- The state after a read: one event more, and for a PINx read under `pad_draw` one draw more (rule R57). -/
theorem memRead_state (r : Reg) (s : State) :
    (memRead r s).2 = s.logBus (.rd r.addr (memRead r s).1) ∨
      (memRead r s).2 = (s.takeDraws 1).logBus (.rd r.addr (memRead r s).1) := by
  unfold memRead readValue
  split
  · exact .inr rfl
  · exact .inl rfl

@[simp] theorem memRead_cfg (r : Reg) (s : State) : (memRead r s).2.cfg = s.cfg := by
  rcases memRead_state r s with h | h <;> rw [h] <;> rfl

@[simp] theorem memRead_prog (r : Reg) (s : State) : (memRead r s).2.prog = s.prog := by
  rcases memRead_state r s with h | h <;> rw [h] <;> rfl

@[simp] theorem memRead_pc (r : Reg) (s : State) : (memRead r s).2.pc = s.pc := by
  rcases memRead_state r s with h | h <;> rw [h] <;> rfl

@[simp] theorem memRead_ddr (r : Reg) (s : State) : (memRead r s).2.ddr = s.ddr := by
  rcases memRead_state r s with h | h <;> rw [h] <;> rfl

@[simp] theorem memRead_port (r : Reg) (s : State) : (memRead r s).2.port = s.port := by
  rcases memRead_state r s with h | h <;> rw [h] <;> rfl

@[simp] theorem memRead_fatal (r : Reg) (s : State) : (memRead r s).2.fatal = s.fatal := by
  rcases memRead_state r s with h | h <;> rw [h] <;> rfl

@[simp] theorem memRead_responses (r : Reg) (s : State) : (memRead r s).2.responses = s.responses := by
  rcases memRead_state r s with h | h <;> rw [h] <;> rfl

@[simp] theorem memRead_busTrace (r : Reg) (s : State) :
    (memRead r s).2.busTrace = s.busTrace ++ [.rd r.addr (memRead r s).1] := by
  rcases memRead_state r s with h | h <;> rw [h] <;> rfl

@[simp] theorem memRead_collabTrace (r : Reg) (s : State) : (memRead r s).2.collabTrace = s.collabTrace := by
  rcases memRead_state r s with h | h <;> rw [h] <;> rfl

@[simp] theorem memRead_sensorIn (r : Reg) (s : State) : (memRead r s).2.sensorIn = s.sensorIn := by
  rcases memRead_state r s with h | h <;> rw [h] <;> rfl

/-- A write of PINx toggles `port[p]` (rule R58). -/
@[simp] theorem memWrite_pinr (p : PortName) (v : Byte) (s : State) :
    memWrite (pinr p) v s = (s.setPort p (s.port.get p ^^^ v)).logBus (.wr (pinr p).addr v) := rfl

/-- A write of DDRx stores (rule R58). -/
@[simp] theorem memWrite_ddrr (p : PortName) (v : Byte) (s : State) :
    memWrite (ddrr p) v s = (s.setDdr p v).logBus (.wr (ddrr p).addr v) := rfl

/-- A write of PORTx stores (rule R58). -/
@[simp] theorem memWrite_portr (p : PortName) (v : Byte) (s : State) :
    memWrite (portr p) v s = (s.setPort p v).logBus (.wr (portr p).addr v) := rfl

/-- The three writes, one for each kind of register (rule R58). -/
theorem memWrite_state (r : Reg) (v : Byte) (s : State) :
    (r.kind = .pin ∧ memWrite r v s = (s.setPort r.port (s.port.get r.port ^^^ v)).logBus (.wr r.addr v)) ∨
      (r.kind = .ddr ∧ memWrite r v s = (s.setDdr r.port v).logBus (.wr r.addr v)) ∨
      (r.kind = .port ∧ memWrite r v s = (s.setPort r.port v).logBus (.wr r.addr v)) := by
  unfold memWrite storeReg
  cases r.kind <;> simp

/-- A command runs its body while the latch is clear (rule R112). -/
theorem execute_live (body : State → State) {s : State} (h : s.fatal = none) :
    execute body s = .next (body s) := by
  simp [execute, h]

/-- A latched cause is the only answer (rule R207). -/
theorem execute_latched (body : State → State) {s : State} {c : Cause} (h : s.fatal = some c) :
    execute body s = .next (answerLatched c s) := by
  simp [execute, h]

theorem legalOnly_true {ok : Bool} (body : State → State) (s : State) (h : ok = true) :
    legalOnly ok body s = body s := by
  simp [legalOnly, h]

theorem legalOnly_false {ok : Bool} (body : State → State) (s : State) (h : ok = false) :
    legalOnly ok body s = raiseFatal .illegalCommand s := by
  simp [legalOnly, h]

/-- The word placed at `n` is found at `n`. -/
theorem getElem_placeWord (prog : List Word) (n : Nat) (w : Word) : (placeWord prog n w)[n]? = some w := by
  unfold placeWord
  rw [List.append_assoc, List.getElem?_append_right (by simp), List.getElem?_append_right (by simp; omega)]
  simp only [List.length_take, List.length_replicate]
  rw [show n - min n prog.length - (n - prog.length) = 0 by omega]
  rfl

/-- Two states agree at an address when they agree on the register it decodes to (rules R52, R53). -/
theorem peek_eq_of_stored {s t : State} {a : Addr} (h : ∀ r, decodeAddr a = some r → t.stored r = s.stored r) :
    t.peek a = s.peek a := by
  unfold State.peek
  cases hd : decodeAddr a with
  | none => rfl
  | some r => simp [h r hd]

theorem peek_eq_of_banks {s t : State} (hd : t.ddr = s.ddr) (hp : t.port = s.port) (a : Addr) :
    t.peek a = s.peek a :=
  peek_eq_of_stored fun r _ => by unfold State.stored; rw [hd, hp]

/-- The state with the two registers of one port overwritten. -/
def State.overwrite (s : State) (p : PortName) (d q : Byte) : State :=
  { s with ddr := s.ddr.set p d, port := s.port.set p q }

/-- A read of another port's register does not see the overwritten ones (rule R21). -/
theorem memRead_overwrite {r : Reg} {p : PortName} (h : r.port ≠ p) (s : State) (d q : Byte) :
    memRead r (s.overwrite p d q) = ((memRead r s).1, (memRead r s).2.overwrite p d q) := by
  obtain ⟨o, k⟩ := r
  have hg : ∀ (b : Bank) v, (b.set p v).get o = b.get o := fun b v => Bank.get_set_ne b v h
  cases k <;> cases hp : s.cfg.pinRead <;>
    simp [memRead, readValue, State.stored, draw8, State.overwrite, hp, hg, State.takeDraws, State.logBus]

/-- A write of another port's register does not see the overwritten ones (rule R21). -/
theorem memWrite_overwrite {r : Reg} {p : PortName} (h : r.port ≠ p) (v : Byte) (s : State) (d q : Byte) :
    memWrite r v (s.overwrite p d q) = (memWrite r v s).overwrite p d q := by
  obtain ⟨o, k⟩ := r
  have hg : ∀ (b : Bank) v, (b.set p v).get o = b.get o := fun b v => Bank.get_set_ne b v h
  cases k <;> simp [memWrite, storeReg, State.overwrite, hg, State.logBus, State.setPort, State.setDdr] <;>
    exact Bank.set_comm _ (Ne.symm h) _ _

end Sys2Proof.Machine
end

