-- ==== Sys2Proof/Laws/Commands.lean ====
section
/-! SUPPORT. The shared bodies of commands, said once as a whole next state, and a command while the latch is clear. -/

namespace Sys2Proof.Machine

@[simp] theorem addr_pinr (p : PortName) : (pinr p).addr = base p := by
  simp [pinr, Reg.addr, RegKind.offset]

@[simp] theorem addr_ddrr (p : PortName) : (ddrr p).addr = base p + 1#16 := rfl

@[simp] theorem addr_portr (p : PortName) : (portr p).addr = base p + 2#16 := rfl

/-- The accesses of `MODE` (rule R132). -/
theorem setMode_eq (p : PortName) (idx : Byte) (m : IOMode) (s : State) :
    setMode p idx m s = { s with
      ddr := s.ddr.set p (modeByte (s.ddr.get p) (mask idx) m)
      busTrace := s.busTrace ++
        [.rd (base p + 1#16) (s.ddr.get p), .wr (base p + 1#16) (modeByte (s.ddr.get p) (mask idx) m)]
      responses := s.responses ++ [.done]
      pc := s.pc + 1 } := by
  simp [setMode, complete, State.respond, State.advance, State.logBus, State.setDdr]

/-- The toggle of a pin (rule R135). -/
theorem toggle_eq (p : PortName) (idx : Byte) (s : State) :
    toggle p idx s = { s with
      port := s.port.set p (s.port.get p ^^^ mask idx)
      busTrace := s.busTrace ++ [.wr (base p) (mask idx)] } := by
  simp [toggle, State.logBus, State.setPort]

/-- `HIGH` and `LOW` with an index of 8 or more do nothing (rules R136, R137). -/
theorem guardedToggle_of_ge (test : Config → Byte → Byte → Byte → Bool) (p : PortName) {idx : Byte} (s : State)
    (h : 8 ≤ idx.toNat) :
    guardedToggle test p idx s = { s with responses := s.responses ++ [.done], pc := s.pc + 1 } := by
  unfold guardedToggle
  rw [if_neg (by omega)]
  rfl

/-- `HIGH` and `LOW` when the guard fails: the two reads only (rules R136, R137). -/
theorem guardedToggle_of_not {test : Config → Byte → Byte → Byte → Bool} {p : PortName} {idx : Byte} {s : State}
    (h : idx.toNat < 8) (ht : test s.cfg (s.ddr.get p) (s.port.get p) (mask idx) = false) :
    guardedToggle test p idx s = { s with
      busTrace := s.busTrace ++ [.rd (base p + 1#16) (s.ddr.get p), .rd (base p + 2#16) (s.port.get p)]
      responses := s.responses ++ [.done]
      pc := s.pc + 1 } := by
  unfold guardedToggle
  rw [if_pos h]
  simp only [memRead_ddrr, memRead_portr, State.logBus_port, ht]
  simp [complete, State.respond, State.advance, State.logBus]

/-- `HIGH` and `LOW` when the guard holds: the two reads and the toggle (rules R136, R137). -/
theorem guardedToggle_of_test {test : Config → Byte → Byte → Byte → Bool} {p : PortName} {idx : Byte} {s : State}
    (h : idx.toNat < 8) (ht : test s.cfg (s.ddr.get p) (s.port.get p) (mask idx) = true) :
    guardedToggle test p idx s = { s with
      port := s.port.set p (s.port.get p ^^^ mask idx)
      busTrace := s.busTrace ++ [.rd (base p + 1#16) (s.ddr.get p), .rd (base p + 2#16) (s.port.get p),
        .wr (base p) (mask idx)]
      responses := s.responses ++ [.done]
      pc := s.pc + 1 } := by
  unfold guardedToggle
  rw [if_pos h]
  simp only [memRead_ddrr, memRead_portr, State.logBus_port, ht, if_true, toggle_eq]
  simp [complete, State.respond, State.advance, State.logBus]

theorem exec_acq {p : PortName} {s : State} (h : s.fatal = none) :
    exec (.acq p) s = .next (complete (.addr (base p)) s) := execute_live _ h

theorem exec_pin {p : PortName} {idx : Byte} {s : State} (h : s.fatal = none) :
    exec (.pin p idx) s = .next (complete (pinAnswer p idx) s) := execute_live _ h

theorem exec_mode {p : PortName} {idx : Byte} {m : IOMode} {s : State} (h : s.fatal = none) (hi : idx.toNat < 8) :
    exec (.mode p idx m) s = .next (setMode p idx m s) :=
  (execute_live _ h).trans (by rw [legalOnly_true _ _ (by simpa using hi)])

theorem exec_out {p : PortName} {idx : Byte} {s : State} (h : s.fatal = none) (hi : idx.toNat < 8) :
    exec (.out p idx) s = .next (setMode p idx .output s) :=
  (execute_live _ h).trans (by rw [legalOnly_true _ _ (by simpa using hi)])

theorem exec_inp {p : PortName} {idx : Byte} {s : State} (h : s.fatal = none) (hi : idx.toNat < 8) :
    exec (.inp p idx) s = .next (setMode p idx .input s) :=
  (execute_live _ h).trans (by rw [legalOnly_true _ _ (by simpa using hi)])

theorem exec_tgl {p : PortName} {idx : Byte} {s : State} (h : s.fatal = none) (hi : idx.toNat < 8) :
    exec (.tgl p idx) s = .next (complete .done (toggle p idx s)) :=
  (execute_live _ h).trans (by rw [legalOnly_true _ _ (by simpa using hi)])

theorem exec_high {p : PortName} {idx : Byte} {s : State} (h : s.fatal = none) :
    exec (.high p idx) s = .next (guardedToggle highToggles p idx s) := execute_live _ h

theorem exec_low {p : PortName} {idx : Byte} {s : State} (h : s.fatal = none) :
    exec (.low p idx) s = .next (guardedToggle lowToggles p idx s) := execute_live _ h

theorem exec_rd {addr : Addr} {s : State} (h : s.fatal = none) : exec (.rd addr) s = .next (readAt addr s) :=
  execute_live _ h

theorem exec_wr {addr : Addr} {data : Byte} {s : State} (h : s.fatal = none) :
    exec (.wr addr data) s = .next (writeAt addr data s) := execute_live _ h

theorem exec_rot {b n : Byte} {s : State} (h : s.fatal = none) (h1 : 1 ≤ n.toNat) (h7 : n.toNat ≤ 7) :
    exec (.rot b n) s = .next (complete (.byte ((b >>> n.toNat) ||| (b <<< (8 - n.toNat)))) s) :=
  (execute_live _ h).trans (by rw [rotate_of_count h1 h7, answerByte_some])

theorem exec_xor {a b : Byte} {s : State} (h : s.fatal = none) :
    exec (.xor a b) s = .next (complete (.byte (xorBytes a b)) s) := execute_live _ h

theorem exec_xsh {a : Byte} {s : State} (h : s.fatal = none) :
    exec (.xsh a) s = .next (complete (.byte (xorShift a)) s) := execute_live _ h

theorem exec_pshl {val change : Byte} {s : State} (h : s.fatal = none) :
    exec (.pshl val change) s = .next (complete (.byte (pushLeft val change)) s) := execute_live _ h

theorem exec_pshr {val change : Byte} {s : State} (h : s.fatal = none) :
    exec (.pshr val change) s = .next (complete (.byte (pushRight val change)) s) := execute_live _ h

theorem exec_genm {s : State} (h : s.fatal = none) (hm : s.cfg.genMode = .motion) :
    exec .genm s = .next (complete (.byte (motionResult s.cfg (nextReading s))) (dropReading (emitMotionSession s))) :=
  (execute_live _ h).trans (by rw [inMode, if_pos hm])

theorem exec_gena {s : State} (h : s.fatal = none) (hm : s.cfg.genMode = .analog) :
    exec .gena s = .next (complete (.byte (Config.freeByte s.draws)) ((s.emit .analogSession).takeDraws 1)) :=
  (execute_live _ h).trans (by rw [inMode, if_pos hm]; rfl)

/-- A generator command of the other mode (rules R180, R206). -/
theorem exec_genm_wrong {s : State} (h : s.fatal = none) (hm : s.cfg.genMode ≠ .motion) :
    exec .genm s = .next (raiseFatal .modeMismatch s) :=
  (execute_live _ h).trans (by rw [inMode, if_neg hm])

theorem exec_gena_wrong {s : State} (h : s.fatal = none) (hm : s.cfg.genMode ≠ .analog) :
    exec .gena s = .next (raiseFatal .modeMismatch s) :=
  (execute_live _ h).trans (by rw [inMode, if_neg hm])

/-- What `HIGH` and `LOW` leave alone (rules R136, R137). -/
theorem guardedToggle_frame (test : Config → Byte → Byte → Byte → Bool) (p : PortName) (idx : Byte) (s : State) :
    (guardedToggle test p idx s).ddr = s.ddr ∧ (guardedToggle test p idx s).cfg = s.cfg ∧
      (guardedToggle test p idx s).prog = s.prog ∧ (guardedToggle test p idx s).fatal = s.fatal ∧
      (guardedToggle test p idx s).collabTrace = s.collabTrace ∧
      (guardedToggle test p idx s).sensorIn = s.sensorIn ∧ (guardedToggle test p idx s).draws = s.draws := by
  by_cases h : idx.toNat < 8
  · cases ht : test s.cfg (s.ddr.get p) (s.port.get p) (mask idx)
    · rw [guardedToggle_of_not h ht]; simp
    · rw [guardedToggle_of_test h ht]; simp
  · rw [guardedToggle_of_ge _ _ _ (by omega)]; simp

end Sys2Proof.Machine
end

