-- ==== Sys2Proof/Laws/Exec.lean ====
section
/-! SUPPORT. What a command can do, said once (`exec_latched`, `exec_live`), and what a step can do (`step_cases`):
every property of all commands is an induction over `Works`. -/

namespace Sys2Proof.Machine

/-- The work of a command before its response, from `s` to `u`: reads and writes of registers of the port `q`
only, emitted events, draws, and readings taken. -/
inductive Works (q : Option PortName) (s : State) : State → Prop where
  | nil : Works q s s
  | read {u : State} (r : Reg) (h : q = some r.port) (w : Works q s u) : Works q s (memRead r u).2
  | write {u : State} (r : Reg) (v : Byte) (h : q = some r.port) (w : Works q s u) : Works q s (memWrite r v u)
  | emit {u : State} (e : CollabEvent) (w : Works q s u) : Works q s (u.emit e)
  | draw {u : State} (n : Nat) (w : Works q s u) : Works q s (u.takeDraws n)
  | readings {u : State} (rest : List SensorReading) (w : Works q s u) : Works q s (u.leaveReadings rest)

/-- A generator command of the other mode (rule R180). -/
def wrongMode (i : Instr) (c : Config) : Prop :=
  (i = .genm ∧ c.genMode ≠ .motion) ∨ (i = .gena ∧ c.genMode ≠ .analog)

/-- What a live command can answer: an illegal command or a generator of the other mode raises its cause; any other
command does its work, responds without a fault and advances (rules R88, R112, R180, R206). -/
def LiveAnswer (i : Instr) (s t : State) : Prop :=
  (i.wf = false ∧ t = raiseFatal .illegalCommand s) ∨
    (i.wf = true ∧ wrongMode i s.cfg ∧ t = raiseFatal .modeMismatch s) ∨
    (i.wf = true ∧ ¬ wrongMode i s.cfg ∧
      ∃ r u, t = complete r u ∧ r.isFatal = false ∧ Works (touches i) s u)

theorem works_setMode (p : PortName) (idx : Byte) (m : IOMode) (s : State) :
    ∃ r u, setMode p idx m s = complete r u ∧ r.isFatal = false ∧ Works (some p) s u :=
  ⟨.done, _, rfl, rfl, .write (ddrr p) _ rfl (.read (ddrr p) rfl .nil)⟩

theorem works_guardedToggle (test : Config → Byte → Byte → Byte → Bool) (p : PortName) (idx : Byte) (s : State) :
    ∃ r u, guardedToggle test p idx s = complete r u ∧ r.isFatal = false ∧ Works (some p) s u := by
  unfold guardedToggle
  split
  · refine ⟨.done, _, rfl, rfl, ?_⟩
    have hr := Works.read (portr p) rfl (.read (ddrr p) rfl (.nil (q := some p) (s := s)))
    split
    · exact .write (pinr p) _ rfl hr
    · exact hr
  · exact ⟨.done, s, rfl, rfl, .nil⟩

/-- An index constraint, met or not (rule R88). -/
theorem live_legalOnly {i : Instr} {ok : Bool} {body : State → State} {s : State} (hw : i.wf = ok)
    (hm : ¬ wrongMode i s.cfg)
    (hb : ∃ r u, body s = complete r u ∧ r.isFatal = false ∧ Works (touches i) s u) :
    LiveAnswer i s (legalOnly ok body s) := by
  cases ok with
  | false => exact .inl ⟨hw, legalOnly_false _ _ rfl⟩
  | true => exact .inr (.inr ⟨hw, hm, by rw [legalOnly_true _ _ rfl]; exact hb⟩)

theorem live_pure {i : Instr} {r : Response} {s : State} (hw : i.wf = true) (hm : ¬ wrongMode i s.cfg)
    (hr : r.isFatal = false) : LiveAnswer i s (complete r s) :=
  .inr (.inr ⟨hw, hm, r, s, rfl, hr, .nil⟩)

theorem pinAnswer_isFatal (p : PortName) (idx : Byte) : (pinAnswer p idx).isFatal = false := by
  unfold pinAnswer; split <;> rfl

theorem works_genm (s : State) : Works none s (dropReading (emitMotionSession s)) := by
  have h : Works none s (emitMotionSession s) := .emit _ (.emit _ (.emit _ (.emit _ (.emit _ .nil))))
  unfold dropReading
  split
  · exact .readings _ h
  · exact .draw _ h

/-- Every command answers a next state; while the latch is clear it is one of three (rule R112). -/
theorem exec_live (i : Instr) {s : State} (h : s.fatal = none) : ∃ t, exec i s = .next t ∧ LiveAnswer i s t := by
  cases i with
  | acq p => exact ⟨_, execute_live _ h, live_pure rfl (by simp [wrongMode]) rfl⟩
  | pin p idx => exact ⟨_, execute_live _ h, live_pure rfl (by simp [wrongMode]) (pinAnswer_isFatal p idx)⟩
  | mode p idx m => exact ⟨_, execute_live _ h, live_legalOnly rfl (by simp [wrongMode]) (works_setMode p idx m s)⟩
  | out p idx => exact ⟨_, execute_live _ h, live_legalOnly rfl (by simp [wrongMode]) (works_setMode p idx .output s)⟩
  | inp p idx => exact ⟨_, execute_live _ h, live_legalOnly rfl (by simp [wrongMode]) (works_setMode p idx .input s)⟩
  | tgl p idx =>
    exact ⟨_, execute_live _ h, live_legalOnly rfl (by simp [wrongMode])
      ⟨.done, _, rfl, rfl, .write (pinr p) _ rfl .nil⟩⟩
  | high p idx =>
    exact ⟨_, execute_live _ h, .inr (.inr ⟨rfl, by simp [wrongMode], works_guardedToggle highToggles p idx s⟩)⟩
  | low p idx =>
    exact ⟨_, execute_live _ h, .inr (.inr ⟨rfl, by simp [wrongMode], works_guardedToggle lowToggles p idx s⟩)⟩
  | rd addr =>
    refine ⟨_, execute_live _ h, .inr (.inr ⟨rfl, by simp [wrongMode], ?_⟩)⟩
    unfold readAt
    split
    · exact ⟨_, _, rfl, rfl, .nil⟩
    · next r hr => exact ⟨_, _, rfl, rfl, .read r (by simp [touches, hr]) .nil⟩
  | wr addr data =>
    refine ⟨_, execute_live _ h, .inr (.inr ⟨rfl, by simp [wrongMode], ?_⟩)⟩
    unfold writeAt
    split
    · exact ⟨_, _, rfl, rfl, .nil⟩
    · next r hr => exact ⟨_, _, rfl, rfl, .write r data (by simp [touches, hr]) .nil⟩
  | rot b n =>
    refine ⟨_, execute_live _ h, ?_⟩
    by_cases hn : 1 ≤ n.toNat ∧ n.toNat ≤ 7
    · rw [rotate_of_count hn.1 hn.2]
      exact live_pure (by simpa [Instr.wf] using hn) (by simp [wrongMode]) rfl
    · rw [rotate_eq_none.mpr hn]
      exact .inl ⟨by simpa [Instr.wf] using hn, rfl⟩
  | xor a b => exact ⟨_, execute_live _ h, live_pure rfl (by simp [wrongMode]) rfl⟩
  | xsh a => exact ⟨_, execute_live _ h, live_pure rfl (by simp [wrongMode]) rfl⟩
  | pshl val change => exact ⟨_, execute_live _ h, live_pure rfl (by simp [wrongMode]) rfl⟩
  | pshr val change => exact ⟨_, execute_live _ h, live_pure rfl (by simp [wrongMode]) rfl⟩
  | genm =>
    refine ⟨_, execute_live _ h, ?_⟩
    unfold inMode
    split
    · next hm => exact .inr (.inr ⟨rfl, by simp [wrongMode, hm], _, _, rfl, rfl, works_genm s⟩)
    · next hm => exact .inr (.inl ⟨rfl, .inl ⟨rfl, hm⟩, rfl⟩)
  | gena =>
    refine ⟨_, execute_live _ h, ?_⟩
    unfold inMode
    split
    · next hm =>
      exact .inr (.inr ⟨rfl, by simp [wrongMode, hm], _, _, rfl, rfl, .draw 1 (.emit .analogSession .nil)⟩)
    · next hm => exact .inr (.inl ⟨rfl, .inr ⟨rfl, hm⟩, rfl⟩)

/-- While a cause is latched every command answers with it (rule R207). -/
theorem exec_latched (i : Instr) {s : State} {c : Cause} (h : s.fatal = some c) :
    exec i s = .next (answerLatched c s) := by
  cases i <;> exact execute_latched _ h

/-- A presented reserved word is an illegal command (rules R88, R205). -/
theorem present_reserved {w : Word} {s : State} {why : Reserved} (h : s.fatal = none)
    (hd : decode w = .reserved why) : present w s = .next (raiseFatal .illegalCommand s) := by
  simp [present, h, hd]

/-- What a step can do when a word stands at `pc` (rules R205, R207). -/
theorem step_cases {s t : State} (h : step s = .next t) :
    (∃ c, s.fatal = some c ∧ t = answerLatched c s) ∨
      (s.fatal = none ∧ ∃ w, fetch s = some w ∧
        ((∃ why, decode w = .reserved why ∧ t = raiseFatal .illegalCommand s) ∨
          (∃ i, decode w = .command i ∧ LiveAnswer i s t))) := by
  unfold step runNext at h
  split at h
  · next w hw =>
    cases hf : s.fatal with
    | some c =>
      simp only [present, hf] at h
      cases h
      exact .inl ⟨c, rfl, rfl⟩
    | none =>
      refine .inr ⟨rfl, w, hw, ?_⟩
      cases hd : decode w with
      | reserved why =>
        rw [present_reserved hf hd] at h
        cases h
        exact .inl ⟨why, rfl, rfl⟩
      | command i =>
        simp only [present, hf, hd] at h
        obtain ⟨u, hu, hl⟩ := exec_live i hf
        rw [hu] at h
        cases h
        exact .inr ⟨i, rfl, hl⟩
  · cases h

theorem Works.cfg {q : Option PortName} {s u : State} (w : Works q s u) : u.cfg = s.cfg := by
  induction w with
  | nil => rfl
  | read r h w ih => simpa using ih
  | @write u r v h w ih => rcases memWrite_state r v u with ⟨_, e⟩ | ⟨_, e⟩ | ⟨_, e⟩ <;> rw [e] <;> simpa using ih
  | emit e w ih => simpa using ih
  | draw n w ih => simpa using ih
  | readings rest w ih => simpa using ih

theorem Works.prog {q : Option PortName} {s u : State} (w : Works q s u) : u.prog = s.prog := by
  induction w with
  | nil => rfl
  | read r h w ih => simpa using ih
  | @write u r v h w ih => rcases memWrite_state r v u with ⟨_, e⟩ | ⟨_, e⟩ | ⟨_, e⟩ <;> rw [e] <;> simpa using ih
  | emit e w ih => simpa using ih
  | draw n w ih => simpa using ih
  | readings rest w ih => simpa using ih

theorem Works.pc {q : Option PortName} {s u : State} (w : Works q s u) : u.pc = s.pc := by
  induction w with
  | nil => rfl
  | read r h w ih => simpa using ih
  | @write u r v h w ih => rcases memWrite_state r v u with ⟨_, e⟩ | ⟨_, e⟩ | ⟨_, e⟩ <;> rw [e] <;> simpa using ih
  | emit e w ih => simpa using ih
  | draw n w ih => simpa using ih
  | readings rest w ih => simpa using ih

theorem Works.fatal {q : Option PortName} {s u : State} (w : Works q s u) : u.fatal = s.fatal := by
  induction w with
  | nil => rfl
  | read r h w ih => simpa using ih
  | @write u r v h w ih => rcases memWrite_state r v u with ⟨_, e⟩ | ⟨_, e⟩ | ⟨_, e⟩ <;> rw [e] <;> simpa using ih
  | emit e w ih => simpa using ih
  | draw n w ih => simpa using ih
  | readings rest w ih => simpa using ih

theorem Works.responses {q : Option PortName} {s u : State} (w : Works q s u) : u.responses = s.responses := by
  induction w with
  | nil => rfl
  | read r h w ih => simpa using ih
  | @write u r v h w ih => rcases memWrite_state r v u with ⟨_, e⟩ | ⟨_, e⟩ | ⟨_, e⟩ <;> rw [e] <;> simpa using ih
  | emit e w ih => simpa using ih
  | draw n w ih => simpa using ih
  | readings rest w ih => simpa using ih

/-- The work of a command only adds to the traces and the count of draws (rule R60). -/
theorem Works.grows {q : Option PortName} {s u : State} (w : Works q s u) :
    s.busTrace <+: u.busTrace ∧ s.collabTrace <+: u.collabTrace ∧ s.draws ≤ u.draws := by
  induction w with
  | nil => simp
  | @read u r h w ih =>
    refine ⟨by simpa using ih.1.trans (List.prefix_append _ _), by simpa using ih.2.1, ?_⟩
    rcases memRead_state r u with e | e <;> rw [e] <;> simp <;> omega
  | @write u r v h w ih =>
    rcases memWrite_state r v u with ⟨_, e⟩ | ⟨_, e⟩ | ⟨_, e⟩ <;> rw [e] <;> simp <;>
      exact ⟨ih.1.trans (List.prefix_append _ _), ih.2⟩
  | emit e w ih => exact ⟨ih.1, ih.2.1.trans (List.prefix_append _ _), ih.2.2⟩
  | draw n w ih => exact ⟨ih.1, ih.2.1, by simp; omega⟩
  | readings rest w ih => exact ih

/-- A replay of one event more (rule R61). -/
theorem replay_append (c : Config) (es : List BusEvent) (e : BusEvent) (d q : Bank) :
    replay c (es ++ [e]) d q = (replay c es d q).bind fun m => replayEvent c e m.1 m.2 := by
  induction es generalizing d q with
  | nil => simp [replay]; cases replayEvent c e d q <;> rfl
  | cons x es ih =>
    simp only [List.cons_append, replay]
    cases replayEvent c x d q with
    | none => rfl
    | some m => exact ih _ _

/-- A read returns a value it may return (rule R57). -/
theorem readAllowed_memRead (r : Reg) (u : State) :
    readAllowed u.cfg r (u.ddr.get r.port) (u.port.get r.port) (memRead r u).1 = true := by
  obtain ⟨p, k⟩ := r
  cases k <;> cases h : u.cfg.pinRead <;> simp [readAllowed, memRead, readValue, State.stored, h]
  ext i hi
  simp
  cases (u.ddr.get p)[i] <;> simp

end Sys2Proof.Machine
end

