-- ==== Sys2Proof/Laws/PerInstr.lean ====
section
/-! SUPPORT. Statements for all instructions, one lemma per constructor.  The family `TableRow`: the word of a
command has the fixed bits of its row of the opcode map. -/

namespace Sys2Proof.Laws

/-- The `mask` column of rule R81. -/
def rowMask : Instr → Word
  | .acq _ => 0xFF00FFFF#32
  | .pin _ _ => 0xFF0000FF#32
  | .mode _ _ _ => 0xFF0000FE#32
  | .out _ _ => 0xFF0000FF#32
  | .inp _ _ => 0xFF0000FF#32
  | .tgl _ _ => 0xFF0000FF#32
  | .high _ _ => 0xFF0000FF#32
  | .low _ _ => 0xFF0000FF#32
  | .rd _ => 0xFF0000FF#32
  | .wr _ _ => 0xFF000000#32
  | .rot _ _ => 0xFF0000FF#32
  | .xor _ _ => 0xFF0000FF#32
  | .xsh _ => 0xFF00FFFF#32
  | .pshl _ _ => 0xFF0000FF#32
  | .pshr _ _ => 0xFF0000FF#32
  | .genm => 0xFFFFFFFF#32
  | .gena => 0xFFFFFFFF#32

/-- The `match` column of rule R81. -/
def rowMatch : Instr → Word
  | .acq _ => 0x01000000#32
  | .pin _ _ => 0x02000000#32
  | .mode _ _ _ => 0x03000000#32
  | .out _ _ => 0x03000001#32
  | .inp _ _ => 0x03000000#32
  | .tgl _ _ => 0x04000000#32
  | .high _ _ => 0x05000000#32
  | .low _ _ => 0x06000000#32
  | .rd _ => 0x10000000#32
  | .wr _ _ => 0x11000000#32
  | .rot _ _ => 0x20000000#32
  | .xor _ _ => 0x21000000#32
  | .xsh _ => 0x22000000#32
  | .pshl _ _ => 0x23000000#32
  | .pshr _ _ => 0x24000000#32
  | .genm => 0x30000000#32
  | .gena => 0x31000000#32

/-- Masking a packed word masks its fields. -/
theorem packWord_and (o a b c o' a' b' c' : Byte) :
    packWord o a b c &&& packWord o' a' b' c' = packWord (o &&& o') (a &&& a') (b &&& b') (c &&& c') := by
  have h1 := BitVec.and_append (x₁ := o) (x₂ := o') (y₁ := a) (y₂ := a')
  have h2 := BitVec.and_append (x₁ := o ++ a) (x₂ := o' ++ a') (y₁ := b) (y₂ := b')
  have h3 := BitVec.and_append (x₁ := o ++ a ++ b) (x₂ := o' ++ a' ++ b') (y₁ := c) (y₂ := c')
  rw [h2, h1] at h3
  exact h3

/-- The word of a command selects its row: `w & mask = match` (rule R81). -/
def TableRow.Statement (i : Instr) : Prop := encode i &&& rowMask i = rowMatch i

theorem masked (o a b c o' a' b' c' : Byte) (m k : Word) (hm : m = packWord o' a' b' c')
    (hk : k = packWord (o &&& o') (a &&& a') (b &&& b') (c &&& c')) : packWord o a b c &&& m = k := by
  rw [hm, hk, packWord_and]

theorem TableRow.acq (p : PortName) : TableRow.Statement (.acq p) :=
  masked _ _ _ _ 0xFF#8 0#8 0xFF#8 0xFF#8 _ _ rfl (by simp; rfl)

theorem TableRow.pin (p : PortName) (idx : Byte) : TableRow.Statement (.pin p idx) :=
  masked _ _ _ _ 0xFF#8 0#8 0#8 0xFF#8 _ _ rfl (by simp; rfl)

theorem TableRow.mode (p : PortName) (idx : Byte) (m : IOMode) : TableRow.Statement (.mode p idx m) :=
  masked _ _ _ _ 0xFF#8 0#8 0#8 0xFE#8 _ _ rfl (by cases m <;> simp [IOMode.code] <;> rfl)

theorem TableRow.out (p : PortName) (idx : Byte) : TableRow.Statement (.out p idx) :=
  masked _ _ _ _ 0xFF#8 0#8 0#8 0xFF#8 _ _ rfl (by simp; rfl)

theorem TableRow.inp (p : PortName) (idx : Byte) : TableRow.Statement (.inp p idx) :=
  masked _ _ _ _ 0xFF#8 0#8 0#8 0xFF#8 _ _ rfl (by simp; rfl)

theorem TableRow.tgl (p : PortName) (idx : Byte) : TableRow.Statement (.tgl p idx) :=
  masked _ _ _ _ 0xFF#8 0#8 0#8 0xFF#8 _ _ rfl (by simp; rfl)

theorem TableRow.high (p : PortName) (idx : Byte) : TableRow.Statement (.high p idx) :=
  masked _ _ _ _ 0xFF#8 0#8 0#8 0xFF#8 _ _ rfl (by simp; rfl)

theorem TableRow.low (p : PortName) (idx : Byte) : TableRow.Statement (.low p idx) :=
  masked _ _ _ _ 0xFF#8 0#8 0#8 0xFF#8 _ _ rfl (by simp; rfl)

theorem TableRow.rd (addr : Addr) : TableRow.Statement (.rd addr) :=
  masked _ _ _ _ 0xFF#8 0#8 0#8 0xFF#8 _ _ rfl (by simp; rfl)

theorem TableRow.wr (addr : Addr) (data : Byte) : TableRow.Statement (.wr addr data) :=
  masked _ _ _ _ 0xFF#8 0#8 0#8 0#8 _ _ rfl (by simp; rfl)

theorem TableRow.rot (b n : Byte) : TableRow.Statement (.rot b n) :=
  masked _ _ _ _ 0xFF#8 0#8 0#8 0xFF#8 _ _ rfl (by simp; rfl)

theorem TableRow.xor (a b : Byte) : TableRow.Statement (.xor a b) :=
  masked _ _ _ _ 0xFF#8 0#8 0#8 0xFF#8 _ _ rfl (by simp; rfl)

theorem TableRow.xsh (a : Byte) : TableRow.Statement (.xsh a) :=
  masked _ _ _ _ 0xFF#8 0#8 0xFF#8 0xFF#8 _ _ rfl (by simp; rfl)

theorem TableRow.pshl (val change : Byte) : TableRow.Statement (.pshl val change) :=
  masked _ _ _ _ 0xFF#8 0#8 0#8 0xFF#8 _ _ rfl (by simp; rfl)

theorem TableRow.pshr (val change : Byte) : TableRow.Statement (.pshr val change) :=
  masked _ _ _ _ 0xFF#8 0#8 0#8 0xFF#8 _ _ rfl (by simp; rfl)

theorem TableRow.genm : TableRow.Statement .genm := by unfold TableRow.Statement; decide

theorem TableRow.gena : TableRow.Statement .gena := by unfold TableRow.Statement; decide

end Sys2Proof.Laws
end

