-- ==== Sys2Proof/Tests/Slice0.lean ====
section
/-! SUPPORT. Tests: the well-formedness smoke test, decoding of words written out from the spec, one step of each
command on the vectors of spec/95_test_vectors.md, and a witness for the hypotheses of each statement. -/

namespace Sys2Proof.Tests

open Sys2Proof Sys2Proof.Machine

/-! ## Small states -/

/-- After reset, with the bytes `d` in DDRx and `q` in PORTx of port `p`. -/
def portState (p : PortName) (d q : Byte) : State :=
  { State.reset with ddr := Bank.zero.set p d, port := Bank.zero.set p q }

/-- The bytes of port B, the port of most vectors. -/
def atB (d q : Byte) : State := portState .b d q

/-- The same state with both guards `bit`. -/
def bitGuards (s : State) : State := { s with cfg := { s.cfg with guardPort := .bit, guardDdr := .bit } }

/-- The same state with the analog generator. -/
def analogMode (s : State) : State := { s with cfg := { s.cfg with genMode := .analog } }

/-- The same state with `P_PIN_READ = pad_draw`. -/
def padDrawMode (s : State) : State := { s with cfg := { s.cfg with pinRead := .padDraw } }

/-- The same state with `P_RESET = zero`. -/
def zeroReset (s : State) : State := { s with cfg := { s.cfg with resetRule := .zero } }

/-- The same state with a cause latched. -/
def latched (c : Cause) (s : State) : State := { s with fatal := some c }

/-- A state with one supplied sensor reading. -/
def sensing (x : SensorReading) : State := { State.reset with sensorIn := [x] }

/-- What a step of the word `w` shows at port `p`: the responses, the bus trace, DDRx and PORTx, and `pc`. -/
def shown (p : PortName) (w : Nat) (s : State) : Option (List Response × List BusEvent × Byte × Byte × Nat) :=
  match step (s.withFetchWord 32 w) with
  | .next t => some (t.responses, t.busTrace, t.ddr.get p, t.port.get p, t.pc)
  | .fault _ => none
  | .refused _ => none

/-- The responses and the latch a step of the word `w` leaves. -/
def answered (w : Nat) (s : State) : Option (List Response × Option Cause) :=
  match step (s.withFetchWord 32 w) with
  | .next t => some (t.responses, t.fatal)
  | .fault _ => none
  | .refused _ => none

/-- The responses and the collaborator trace a step of the word `w` leaves. -/
def sensed (w : Nat) (s : State) : Option (List Response × List CollabEvent) :=
  match step (s.withFetchWord 32 w) with
  | .next t => some (t.responses, t.collabTrace)
  | .fault _ => none
  | .refused _ => none

/-- Why a word is reserved, if it is. -/
def whyReserved (w : Word) : Option Reserved :=
  match decode w with
  | .command _ => none
  | .reserved why => some why

/-! ## WellFormed (the value constraints of rule R81) -/

theorem test_mode_index_eight_is_ill_formed : (Instr.mode .b 8#8 .input).wf = false := by decide
theorem test_out_index_eight_is_ill_formed : (Instr.out .b 8#8).wf = false := by decide
theorem test_in_index_eight_is_ill_formed : (Instr.inp .b 8#8).wf = false := by decide
theorem test_tgl_index_eight_is_ill_formed : (Instr.tgl .b 8#8).wf = false := by decide
theorem test_rot_by_zero_is_ill_formed : (Instr.rot 0xA5#8 0#8).wf = false := by decide
theorem test_rot_by_eight_is_ill_formed : (Instr.rot 0xA5#8 8#8).wf = false := by decide
theorem test_rot_by_seven_is_well_formed : (Instr.rot 0xA5#8 7#8).wf = true := by decide
theorem test_high_index_255_is_well_formed : (Instr.high .l 255#8).wf = true := by decide

/-! ## Words (rule R81; the words of the vectors T1 to T105) -/

theorem test_decode_acq : decode 0x01070000#32 = .command (.acq .h) := by decide
theorem test_decode_acq_last_port : decode 0x010A0000#32 = .command (.acq .l) := by decide
theorem test_decode_pin : decode 0x02010500#32 = .command (.pin .b 5#8) := by decide
theorem test_decode_pin_any_index : decode 0x0201FF00#32 = .command (.pin .b 0xFF#8) := by decide
theorem test_decode_mode : decode 0x03010501#32 = .command (.mode .b 5#8 .output) := by decide
theorem test_decode_out_is_mode_output : decode 0x030A0701#32 = .command (.mode .l 7#8 .output) := by decide
theorem test_decode_in_is_mode_input : decode 0x03000300#32 = .command (.mode .a 3#8 .input) := by decide
theorem test_encode_out : encode (.out .l 7#8) = 0x030A0701#32 := by decide
theorem test_encode_in : encode (.inp .a 3#8) = 0x03000300#32 := by decide
theorem test_decode_tgl : decode 0x040A0700#32 = .command (.tgl .l 7#8) := by decide
theorem test_decode_high : decode 0x05010500#32 = .command (.high .b 5#8) := by decide
theorem test_decode_low : decode 0x0601C800#32 = .command (.low .b 200#8) := by decide
theorem test_decode_rd : decode 0x10002500#32 = .command (.rd 0x0025#16) := by decide
theorem test_decode_wr : decode 0x11010A80#32 = .command (.wr 0x010A#16 0x80#8) := by decide
theorem test_decode_rot : decode 0x20A50300#32 = .command (.rot 0xA5#8 3#8) := by decide
theorem test_decode_xor : decode 0x21F03C00#32 = .command (.xor 0xF0#8 0x3C#8) := by decide
theorem test_decode_xsh : decode 0x22410000#32 = .command (.xsh 0x41#8) := by decide
theorem test_decode_pshl : decode 0x23123400#32 = .command (.pshl 0x12#8 0x34#8) := by decide
theorem test_decode_pshr : decode 0x24123400#32 = .command (.pshr 0x12#8 0x34#8) := by decide
theorem test_decode_genm : decode 0x30000000#32 = .command .genm := by decide
theorem test_decode_gena : decode 0x31000000#32 = .command .gena := by decide

/-- T89, T90: opcodes that are not assigned. -/
theorem test_reserved_opcodes :
    [0x00000000#32, 0xFFFFFFFF#32, 0x07000000#32, 0x12000000#32, 0x25000000#32, 0x32000000#32, 0x0F010500#32].map
      whyReserved = List.replicate 7 (some .unassignedOpcode) := by decide

/-- T91, T94, T95, T96, T97: a field that must be 0 in the pin and bus rows. -/
theorem test_reserved_fields_of_pin_and_bus_rows :
    [0x01010100#32, 0x01010001#32, 0x03010502#32, 0x03010581#32, 0x04010501#32, 0x05010501#32, 0x06010580#32,
      0x02010501#32, 0x10002501#32].map whyReserved = List.replicate 9 (some .fieldNotZero) := by decide

/-- T99, T100, T101: a field that must be 0 in the mixer and generator rows. -/
theorem test_reserved_fields_of_mixer_and_generator_rows :
    [0x20A50301#32, 0x21123401#32, 0x23A50180#32, 0x24A50101#32, 0x22410100#32, 0x22410001#32, 0x30000001#32,
      0x30010000#32, 0x31000100#32].map whyReserved = List.replicate 9 (some .fieldNotZero) := by decide

/-- T92: a port code of 11 or more. -/
theorem test_reserved_port_codes :
    [0x010B0000#32, 0x050B0000#32, 0x02FF0000#32].map whyReserved = List.replicate 3 (some .portCode) := by decide

/-- T93, T95: an index of 8 or more in `MODE` and `TGL`. -/
theorem test_reserved_pin_indexes :
    [0x03010800#32, 0x0301FF01#32, 0x04010800#32].map whyReserved = List.replicate 3 (some .pinIndex) := by decide

/-- T98: a count of 0, 8 and 255 in `ROT`. -/
theorem test_reserved_rotate_counts :
    [0x20A50000#32, 0x20A50800#32, 0x20A5FF00#32].map whyReserved = List.replicate 3 (some .rotateCount) := by decide

theorem test_table_word : decodeTableWord 32 0x05010500 = some (.high .b 5#8) := by decide
theorem test_table_word_reserved : decodeTableWord 32 0x20000000 = none := by decide

/-- A step runs the word `withFetchWord` placed, the first after reset and one further on. -/
theorem test_placed_word_is_fetched :
    fetch (State.reset.withFetchWord 32 0x01070000) = some 0x01070000#32 ∧
      fetch (({ State.reset with pc := 2 } : State).withFetchWord 32 0x01070000) = some 0x01070000#32 := by decide

/-! ## One step of each command (the vectors of spec/95_test_vectors.md) -/

/-- T13. -/
theorem test_acq : shown .h 0x01070000 State.reset = some ([.addr 0x0100#16], [], 0#8, 0#8, 1) := by decide

/-- T17, T18: the last index with a handle and the first without. -/
theorem test_pin :
    shown .b 0x02010700 State.reset = some ([.pinHandle .b 7], [], 0#8, 0#8, 1) ∧
      shown .b 0x02010800 State.reset = some ([.absent], [], 0#8, 0#8, 1) := ⟨by decide, by decide⟩

/-- T20. -/
theorem test_mode_output : shown .b 0x03010501 (atB 0x81#8 0#8) =
    some ([.done], [.rd 0x24#16 0x81#8, .wr 0x24#16 0xA1#8], 0xA1#8, 0#8, 1) := by decide

/-- T21. -/
theorem test_mode_input : shown .b 0x03010700 (atB 0xA1#8 0#8) =
    some ([.done], [.rd 0x24#16 0xA1#8, .wr 0x24#16 0x21#8], 0x21#8, 0#8, 1) := by decide

/-- T22, by the meaning of `OUT` itself. -/
theorem test_out : ∃ t, exec (.out .a 0#8) State.reset = .next t ∧
    t.busTrace = [.rd 0x21#16 0#8, .wr 0x21#16 1#8] ∧ t.ddr.a = 1#8 := ⟨_, rfl, by decide, by decide⟩

/-- T23, by the meaning of `IN` itself. -/
theorem test_in : ∃ t, exec (.inp .a 3#8) (portState .a 0xFF#8 0#8) = .next t ∧
    t.busTrace = [.rd 0x21#16 0xFF#8, .wr 0x21#16 0xF7#8] ∧ t.ddr.a = 0xF7#8 := ⟨_, rfl, by decide, by decide⟩

/-- T27: the toggle ignores the direction. -/
theorem test_tgl : shown .b 0x04010500 (atB 0#8 0x0F#8) =
    some ([.done], [.wr 0x23#16 0x20#8], 0#8, 0x2F#8, 1) := by decide

/-- T28: bit 7 of the last port. -/
theorem test_tgl_last_pin : shown .l 0x040A0700 (portState .l 0#8 0xFF#8) =
    some ([.done], [.wr 0x109#16 0x80#8], 0#8, 0x7F#8, 1) := by decide

/-- T29. -/
theorem test_high : shown .b 0x05010500 (atB 0x20#8 0#8) =
    some ([.done], [.rd 0x24#16 0x20#8, .rd 0x25#16 0#8, .wr 0x23#16 0x20#8], 0x20#8, 0x20#8, 1) := by decide

/-- T31, under the default guards and under `bit`. -/
theorem test_high_beside_a_set_bit :
    shown .b 0x05010500 (atB 0x20#8 1#8) = some ([.done], [.rd 0x24#16 0x20#8, .rd 0x25#16 1#8], 0x20#8, 1#8, 1) ∧
      shown .b 0x05010500 (bitGuards (atB 0x20#8 1#8)) =
        some ([.done], [.rd 0x24#16 0x20#8, .rd 0x25#16 1#8, .wr 0x23#16 0x20#8], 0x20#8, 0x21#8, 1) := ⟨by decide, by decide⟩

/-- T39: the first `LOW` of a pin that is low already. -/
theorem test_low_beside_a_set_bit : shown .b 0x06010500 (atB 0x20#8 1#8) =
    some ([.done], [.rd 0x24#16 0x20#8, .rd 0x25#16 1#8, .wr 0x23#16 0x20#8], 0x20#8, 0x21#8, 1) := by decide

/-- T42. -/
theorem test_low_past_the_port : shown .b 0x0601C800 (atB 0x20#8 0x20#8) =
    some ([.done], [], 0x20#8, 0x20#8, 1) := by decide

/-- T1, T9. -/
theorem test_rd :
    shown .b 0x10002500 (atB 0#8 0x20#8) = some ([.byte 0x20#8], [.rd 0x25#16 0x20#8], 0#8, 0x20#8, 1) ∧
      shown .g 0x10003500 State.reset = some ([.notSelected], [], 0#8, 0#8, 1) := ⟨by decide, by decide⟩

/-- T2: PINB reads PORTB. -/
theorem test_rd_pin : shown .b 0x10002300 (atB 0#8 0x20#8) =
    some ([.byte 0x20#8], [.rd 0x23#16 0x20#8], 0#8, 0x20#8, 1) := by decide

/-- T4: a write to PINB toggles. -/
theorem test_wr_pin : shown .b 0x11002320 (atB 0#8 0x21#8) =
    some ([.done], [.wr 0x23#16 0x20#8], 0#8, 1#8, 1) := by decide

/-- T5 and T8: writes to DDRL and PORTA store. -/
theorem test_wr_stores :
    shown .l 0x11010A80 State.reset = some ([.done], [.wr 0x10A#16 0x80#8], 0x80#8, 0#8, 1) ∧
      shown .a 0x11002202 (portState .a 0#8 0xC3#8) = some ([.done], [.wr 0x22#16 2#8], 0#8, 2#8, 1) := ⟨by decide, by decide⟩

/-- T48, T46. -/
theorem test_rot :
    answered 0x20A50300 State.reset = some ([.byte 0xB4#8], none) ∧
      answered 0x20010100 State.reset = some ([.byte 0x80#8], none) := by decide

/-- Rule R161 (a), entry U2: a count of 0 and of 8 has no value. -/
theorem test_rotate_has_no_value : rotate 0xA5#8 0#8 = none ∧ rotate 0xA5#8 8#8 = none := by decide

/-- T54. -/
theorem test_xor : answered 0x21F03C00 State.reset = some ([.byte 0xCC#8], none) := by decide

/-- T57, T58. -/
theorem test_xsh :
    answered 0x22410000 State.reset = some ([.byte 0x6D#8], none) ∧
      answered 0x226B0000 State.reset = some ([.byte 0#8], none) := by decide

/-- T66, T64. -/
theorem test_pshl :
    answered 0x23A50100 State.reset = some ([.byte 0xEE#8], none) ∧
      answered 0x23800000 State.reset = some ([.byte 0x80#8], none) := by decide

/-- T71, T70. -/
theorem test_pshr :
    answered 0x24A50100 State.reset = some ([.byte 0x77#8], none) ∧
      answered 0x24FFFF00 State.reset = some ([.byte 0#8], none) := by decide

/-- T81, T82. -/
theorem test_mix_motion :
    mixMotion 0x12#8 0x34#8 0x56#8 0x78#8 0x9A#8 0xBC#8 = 0x2D#8 ∧
      mixMotion 0x80#8 0x40#8 0x20#8 0x10#8 0x08#8 0x04#8 = 0xE0#8 := by decide

/-- T86: negative words and words above a byte; a width of 16 bits holds them all. -/
theorem test_genm :
    sensed 0x30000000 { sensing ⟨-1, -128, 256, 257, -256, 0x1234⟩ with
        cfg := { Config.default with sensorExtraBits := 8 } } =
      some ([.byte 0xD7#8], [.sensorBegin 0 0, .sensorReadGyro, .delay 1000, .sensorReadAccel, .delay 1000]) := by
  decide

/-- T83, T84: the other mode, no event. -/
theorem test_generator_of_the_other_mode :
    answered 0x31000000 State.reset = some ([.fatal .modeMismatch], some .modeMismatch) ∧
      sensed 0x31000000 State.reset = some ([.fatal .modeMismatch], []) ∧
      sensed 0x30000000 (analogMode State.reset) = some ([.fatal .modeMismatch], []) := by decide

/-- T88: one event and the free byte, whatever it is. -/
theorem test_gena :
    sensed 0x31000000 (analogMode State.reset) = some ([.byte (Config.freeByte 0)], [.analogSession]) := rfl

/-- T106: a reserved word raises the fault; `pc` and the registers stay. -/
theorem test_reserved_word :
    shown .b 0x20A50000 (atB 0x20#8 0x20#8) = some ([.fatal .illegalCommand], [], 0x20#8, 0x20#8, 0) ∧
      answered 0x20A50000 (atB 0x20#8 0x20#8) = some ([.fatal .illegalCommand], some .illegalCommand) := by decide

/-- T107: a legal word after a fault is not run. -/
theorem test_command_after_a_fault : shown .b 0x04010500 (latched .illegalCommand (atB 0x20#8 0x20#8)) =
    some ([.fatal .illegalCommand], [], 0x20#8, 0x20#8, 0) := by decide

/-- T108: the latched cause is kept. -/
theorem test_reserved_word_after_a_fault : answered 0x20A50000 (latched .modeMismatch State.reset) =
    some ([.fatal .modeMismatch], some .modeMismatch) := by decide

/-- T109. -/
theorem test_reset_event :
    (resetEvent (Bank.zero.set .b 5#8) Bank.zero (latched .modeMismatch (atB 1#8 2#8))).fatal = none ∧
      (resetEvent (Bank.zero.set .b 5#8) Bank.zero (latched .modeMismatch (atB 1#8 2#8))).ddr.b = 5#8 := by decide

/-- With no command left the run has ended. -/
theorem test_end_of_run : step State.reset = .fault .runEnded := rfl

/-- A wrapped value of 9 bits keeps its low byte. -/
theorem test_sensor_word : sensorWord 9 256 = -256 ∧ low8 (sensorWord 9 257) = 1#8 := by decide

/-! ## Witnesses: states and operands that meet the hypotheses of the statements, each clause at its boundary -/

/-- The state with the word `w` as its next command. -/
def about (w : Nat) (s : State) : State := s.withFetchWord 32 w

theorem test_witness_DecodeOfEncodeGivesTheCommand :
    (Instr.mode .l 7#8 .output).wf = true ∧ (Instr.out .a 0#8).wf = true ∧ (Instr.inp .l 7#8).wf = true ∧
      (Instr.rot 0xA5#8 1#8).wf = true ∧ (Instr.rot 0xA5#8 7#8).wf = true ∧
      ∀ p idx, Instr.wr 0xFFFF#16 0xFF#8 ≠ .out p idx ∧ Instr.wr 0xFFFF#16 0xFF#8 ≠ .inp p idx :=
  ⟨by decide, by decide, by decide, by decide, by decide, fun _ _ => ⟨nofun, nofun⟩⟩

theorem test_witness_EncodeOfDecodeGivesTheWord :
    decode 0x11FFFFFF#32 = .command (.wr 0xFFFF#16 0xFF#8) ∧
      decode 0x030A0701#32 = .command (.mode .l 7#8 .output) := by decide

/-- The fields of a word, as `ReservedWordsAreTheFiveClauses` takes them. -/
def fieldsOf (w : Word) : Nat × Nat × Nat × Nat :=
  (w.toNat / 0x1000000, w.toNat / 0x10000 % 256, w.toNat / 0x100 % 256, w.toNat % 256)

theorem test_witness_ReservedWordsAreTheFiveClauses :
    fieldsOf 0x07000000#32 = (0x07, 0, 0, 0) ∧ fieldsOf 0x30010000#32 = (0x30, 1, 0, 0) ∧
      fieldsOf 0x01010100#32 = (0x01, 1, 1, 0) ∧ fieldsOf 0x03010502#32 = (0x03, 1, 5, 2) ∧
      fieldsOf 0x010B0000#32 = (0x01, 11, 0, 0) ∧ fieldsOf 0x03010800#32 = (0x03, 1, 8, 0) ∧
      fieldsOf 0x20A50000#32 = (0x20, 0xA5, 0, 0) ∧ fieldsOf 0x20A50800#32 = (0x20, 0xA5, 8, 0) ∧
      decode 0x20A50800#32 = .reserved .rotateCount ∧ State.reset.fatal = none := by decide

theorem test_witness_StepRunsTheDecodedCommand :
    (about 0x05010500 State.reset).prog[(about 0x05010500 State.reset).pc]? = some 0x05010500#32 ∧
      decode 0x05010500#32 = .command (.high .b 5#8) := by decide

theorem test_witness_StepStopsOnlyAtTheEndOfTheRun :
    State.reset.prog.length ≤ State.reset.pc ∧
      (about 0x30000000 State.reset).pc < (about 0x30000000 State.reset).prog.length := by decide

theorem test_witness_EveryCommandAnswersOnceAndAdvances :
    (latched .modeMismatch State.reset).fatal = some .modeMismatch ∧ State.reset.fatal = none ∧
      decode 0x00000000#32 = .reserved .unassignedOpcode ∧
      (decode 0x31000000#32 = .command .gena ∧ State.reset.cfg.genMode = .motion) ∧
      (decode 0x30000000#32 = .command .genm ∧ (analogMode State.reset).cfg.genMode = .analog) ∧
      decode 0x01070000#32 = .command (.acq .h) := by decide

theorem test_witness_OnlyReservedWordsAndWrongGeneratorsFault :
    (∃ t, step (about 0x00000000 State.reset) = .next t ∧ t.fatal = some .illegalCommand) ∧
      (∃ t, step (about 0x31000000 State.reset) = .next t ∧ t.fatal = some .modeMismatch) ∧
      (∃ t, step (about 0x30000000 (analogMode State.reset)) = .next t ∧ t.fatal = some .modeMismatch) ∧
      ∃ t, step (about 0x01070000 State.reset) = .next t ∧ t.fatal = none :=
  ⟨⟨_, rfl, rfl⟩, ⟨_, rfl, rfl⟩, ⟨_, rfl, rfl⟩, ⟨_, rfl, rfl⟩⟩

theorem test_witness_FaultEntryKeepsEverythingElse :
    fetch (about 0x20A50000 State.reset) = some 0x20A50000#32 ∧ decode 0x20A50000#32 = .reserved .rotateCount ∧
      fetch (about 0x30000000 (analogMode State.reset)) = some 0x30000000#32 ∧
      (about 0x30000000 (analogMode State.reset)).cfg.genMode = .analog ∧
      fetch (about 0x31000000 State.reset) = some 0x31000000#32 ∧
      (about 0x31000000 State.reset).cfg.genMode = .motion := by decide

theorem test_witness_LatchedFaultIsAnsweredUntilReset :
    (about 0x04010500 (latched .illegalCommand State.reset)).fatal = some .illegalCommand ∧
      ∃ t, step (about 0x04010500 (latched .illegalCommand State.reset)) = .next t := ⟨rfl, _, rfl⟩

theorem test_witness_OrdinaryOutcomesAreNoFaults :
    (atB 0x20#8 0#8).fatal = none ∧ 8 ≤ (8#8).toNat ∧ 8 ≤ (255#8).toNat ∧
      ((atB 0x20#8 0#8).ddr.get .b).getLsbD (4#8).toNat = false ∧
      [0x0000#16, 0x001F#16, 0x0035#16, 0x00FF#16, 0x010C#16, 0xFFFF#16].map decodeAddr =
        List.replicate 6 none := by decide

theorem test_witness_ResetLeavesTheTableOfValues :
    State.reset.cfg.resetRule = .any ∧
      (zeroReset State.reset).cfg.resetRule = .zero ∧
      (resetEvent Bank.zero Bank.zero State.reset).cfg.pinRead = .outputState := by
  decide

theorem test_witness_AddressDecodeInvertsTheMap :
    decodeAddr 0x20#16 = some ⟨.a, .pin⟩ ∧ decodeAddr 0x34#16 = some ⟨.g, .port⟩ ∧
      decodeAddr 0x100#16 = some ⟨.h, .pin⟩ ∧ decodeAddr 0x10B#16 = some ⟨.l, .port⟩ ∧
      PortName.g.code.toNat ≤ 6 ∧ 7 ≤ PortName.h.code.toNat := by decide

theorem test_witness_MemReadValueAndEvent :
    (memRead (ddrr .b) (atB 0xA1#8 0x20#8)).1 = 0xA1#8 ∧ (memRead (portr .b) (atB 0xA1#8 0x20#8)).1 = 0x20#8 ∧
      (memRead (pinr .b) (atB 0xA1#8 0x20#8)).1 = 0x20#8 ∧ (atB 0xA1#8 0x20#8).cfg.pinRead = .outputState ∧
      (padDrawMode (atB 0xA1#8 0x20#8)).cfg.pinRead = .padDraw := by decide

theorem test_witness_MemWriteEffectAndEvent :
    (pinr .b).kind = .pin ∧ (ddrr .b).kind = .ddr ∧ (portr .b).kind = .port ∧ PortName.a ≠ (pinr .b).port := by
  decide

theorem test_witness_IdempotencyAndAliasing : (atB 0x20#8 0x21#8).cfg.pinRead = .outputState := rfl

theorem test_witness_PinStateMachine :
    (atB 0#8 0#8).pad .b 5 = .inFloat ∧ (atB 0#8 0x20#8).pad .b 5 = .inPullup ∧ (atB 0x20#8 0#8).pad .b 5 = .outLow ∧
      (atB 0x20#8 0x20#8).pad .b 5 = .outHigh ∧
      ∃ t, step (about 0x10002500 (atB 0x20#8 0#8)) = .next t ∧
        ∀ k v, BusEvent.wr (base .b + RegKind.offset k) v ∉ t.busTrace.drop (atB 0x20#8 0#8).busTrace.length :=
  ⟨rfl, rfl, rfl, rfl, _, rfl, fun k v h => by
    replace h : BusEvent.wr (base .b + RegKind.offset k) v ∈ [BusEvent.rd 0x25#16 0#8] := h
    simp at h⟩

theorem test_witness_RdReadsOneRegister :
    (atB 0xA1#8 0x20#8).fatal = none ∧ decodeAddr 0x0035#16 = none ∧ decodeAddr 0x0024#16 = some (ddrr .b) ∧
      decodeAddr 0x0034#16 = some (portr .g) ∧ decodeAddr 0x0100#16 = some (pinr .h) ∧
      (atB 0xA1#8 0x20#8).cfg.pinRead = .outputState ∧ (padDrawMode (atB 0xA1#8 0x20#8)).cfg.pinRead = .padDraw := by
  decide

theorem test_witness_WrWritesOneRegister :
    (atB 0xA1#8 0x20#8).fatal = none ∧ decodeAddr 0x010C#16 = none ∧ decodeAddr 0x0020#16 = some (pinr .a) ∧
      decodeAddr 0x010A#16 = some (ddrr .l) ∧ decodeAddr 0x010B#16 = some (portr .l) ∧
      PortName.k ≠ (portr .l).port := by decide

theorem test_witness_AcqAnswersTheBase : State.reset.fatal = none ∧ 11 ≤ (11#8).toNat ∧ 11 ≤ (255#8).toNat := by decide

theorem test_witness_PinAnswersAHandleBelowEight : State.reset.fatal = none ∧ (7#8).toNat < 8 ∧ 8 ≤ (8#8).toNat := by decide

theorem test_witness_ModeWritesOneDirectionBit :
    (atB 0x81#8 0x20#8).fatal = none ∧ (0#8).toNat < 8 ∧ (7#8).toNat < 8 ∧ 8 ≤ (8#8).toNat ∧
      PortName.a ≠ PortName.b := by decide

theorem test_witness_OutIsModeOutput : (atB 0x81#8 0x20#8).fatal = none ∧ (7#8).toNat < 8 ∧ PortName.a ≠ PortName.b := by
  decide

theorem test_witness_InIsModeInput : (atB 0x81#8 0x20#8).fatal = none ∧ (7#8).toNat < 8 ∧ PortName.a ≠ PortName.b := by
  decide

theorem test_witness_TglFlipsOneOutputBit :
    (7#8).toNat < 8 ∧ 8 ≤ (8#8).toNat ∧ (atB 0#8 0#8).fatal = none ∧
      ∃ t u, exec (.tgl .b 7#8) (atB 0#8 0#8) = .next t ∧ exec (.tgl .b 7#8) t = .next u :=
  ⟨by decide, by decide, rfl, _, _, rfl, rfl⟩

theorem test_witness_GuardsOfHighAndLow : (0#8).toNat < 8 ∧ (7#8).toNat < 8 := by decide

theorem test_witness_HighTogglesALowOutput :
    (atB 0x20#8 0#8).fatal = none ∧ 8 ≤ (8#8).toNat ∧ (5#8).toNat < 8 ∧
      (dirOut .whole ((atB 0x20#8 0#8).ddr.get .b) (mask 5#8) = true ∧
        isLow .whole ((atB 0x20#8 0#8).port.get .b) (mask 5#8) = true) ∧
      ¬ (dirOut .whole ((atB 0x21#8 0#8).ddr.get .b) (mask 5#8) = true ∧
        isLow .whole ((atB 0x21#8 0#8).port.get .b) (mask 5#8) = true) ∧
      (bitGuards (atB 0x21#8 1#8)).cfg.guardDdr = .bit ∧ (bitGuards (atB 0x21#8 1#8)).cfg.guardPort = .bit ∧
      ((bitGuards (atB 0x21#8 1#8)).ddr.get .b).getLsbD (5#8).toNat = true := by decide

theorem test_witness_LowTogglesAHighOutput :
    (atB 0x20#8 1#8).fatal = none ∧ 8 ≤ (8#8).toNat ∧ (5#8).toNat < 8 ∧
      (dirOut .whole ((atB 0x20#8 1#8).ddr.get .b) (mask 5#8) = true ∧
        isHigh .whole ((atB 0x20#8 1#8).port.get .b) (mask 5#8) = true) ∧
      ¬ (dirOut .whole ((atB 0x20#8 0#8).ddr.get .b) (mask 5#8) = true ∧
        isHigh .whole ((atB 0x20#8 0#8).port.get .b) (mask 5#8) = true) ∧
      (bitGuards (atB 0x21#8 0x21#8)).cfg.guardDdr = .bit ∧ (bitGuards (atB 0x21#8 0x21#8)).cfg.guardPort = .bit ∧
      ((bitGuards (atB 0x21#8 0x21#8)).ddr.get .b).getLsbD (5#8).toNat = true ∧
      ((bitGuards (atB 0x21#8 0x21#8)).port.get .b).getLsbD (5#8).toNat = true := by decide

theorem test_witness_HighIsIdempotent : (atB 0x20#8 0#8).fatal = none := rfl

theorem test_witness_LowAfterHighRestoresExactlyWhen :
    (atB 0x20#8 0x20#8).fatal = none ∧ 8 ≤ (8#8).toNat ∧ (5#8).toNat < 8 ∧
      dirOut .whole ((atB 0x20#8 0x20#8).ddr.get .b) (mask 5#8) = true ∧
      isHigh .whole ((atB 0x20#8 0x20#8).port.get .b) (mask 5#8) = true ∧
      ¬ (dirOut .whole ((atB 0x20#8 0#8).ddr.get .b) (mask 5#8) = true ∧
        isHigh .whole ((atB 0x20#8 0#8).port.get .b) (mask 5#8) = true) := by decide

theorem test_witness_GuardsAgreeOnSinglePinPorts :
    (atB 0x80#8 0x80#8).fatal = none ∧ (7#8).toNat < 8 ∧
      (∀ j, j < 8 → j ≠ (7#8).toNat → ((atB 0x80#8 0x80#8).ddr.get .b).getLsbD j = false ∧
        ((atB 0x80#8 0x80#8).port.get .b).getLsbD j = false) ∧
      ((atB 0x80#8 0x80#8).ddr.get .b).getLsbD (7#8).toNat = true := by decide

theorem test_witness_HighLowDecisionTable :
    (atB 0x20#8 0#8).fatal = none ∧ (5#8).toNat < 8 ∧
      dirOut .whole ((atB 0x20#8 0#8).ddr.get .b) (mask 5#8) = true ∧
      isLow .whole ((atB 0x20#8 0#8).port.get .b) (mask 5#8) = true ∧
      isLow .whole ((atB 0x20#8 1#8).port.get .b) (mask 5#8) = false ∧
      dirOut .whole ((atB 0x21#8 1#8).ddr.get .b) (mask 5#8) = false := by decide

theorem test_witness_ModeExposesTheStoredLevel :
    (atB 0#8 0x20#8).fatal = none ∧ (5#8).toNat = (5 : Fin 8).val ∧ (atB 0#8 0x20#8).pad .b 5 = .inPullup ∧
      (atB 0#8 0#8).pad .b 5 = .inFloat ∧ (atB 0x20#8 0x20#8).pad .b 5 = .outHigh ∧
      (atB 0x20#8 0#8).pad .b 5 = .outLow := by decide

theorem test_witness_IllegalOperandsTakeTheFault :
    State.reset.fatal = none ∧ (Instr.mode .b 8#8 .output).wf = false ∧ (Instr.tgl .b 255#8).wf = false ∧
      (Instr.rot 1#8 0#8).wf = false ∧ (Instr.rot 1#8 8#8).wf = false := by decide

theorem test_witness_RotRotatesRight :
    State.reset.fatal = none ∧ (1 ≤ (1#8).toNat ∧ (1#8).toNat ≤ 7) ∧ (1 ≤ (7#8).toNat ∧ (7#8).toNat ≤ 7) ∧
      (0#8).toNat = 0 ∧ 8 ≤ (8#8).toNat := by decide

theorem test_witness_XorAnswersExclusiveOr : State.reset.fatal = none := rfl
theorem test_witness_XshDiffusesAndIsTwoToOne : State.reset.fatal = none := rfl
theorem test_witness_PshlPushesLeft : State.reset.fatal = none := rfl
theorem test_witness_PshrPushesRight : State.reset.fatal = none := rfl

theorem test_witness_MixerFunctionProperties :
    (1 ≤ (1#8).toNat ∧ (1#8).toNat ≤ 7) ∧ (1 ≤ (7#8).toNat ∧ (7#8).toNat ≤ 7) := by decide

theorem test_witness_MixerCommandsReadNoState :
    (Instr.rot 0xA5#8 7#8).wf = true ∧ (Instr.xor 1#8 2#8).wf = true ∧ (Instr.xsh 1#8).wf = true ∧
      (Instr.pshl 1#8 2#8).wf = true ∧ (Instr.pshr 1#8 2#8).wf = true ∧ State.reset.fatal = none := by decide

theorem test_witness_GeneratorModeCheck :
    State.reset.fatal = none ∧ State.reset.cfg.genMode = .motion ∧ State.reset.cfg.genMode ≠ .analog ∧
      (analogMode State.reset).fatal = none ∧ (analogMode State.reset).cfg.genMode = .analog ∧
      (analogMode State.reset).cfg.genMode ≠ .motion := by decide

theorem test_witness_GenmMixesItsReading :
    (sensing ⟨-1, -128, 256, 257, -256, 0x1234⟩).fatal = none ∧
      (sensing ⟨-1, -128, 256, 257, -256, 0x1234⟩).cfg.genMode = .motion ∧
      nextReading (sensing ⟨-1, -128, 256, 257, -256, 0x1234⟩) = ⟨-1, -128, 256, 257, -256, 0x1234⟩ ∧
      BitVec.ofInt 8 (-1) = 0xFF#8 ∧ BitVec.ofInt 8 (-256) = 0#8 ∧ State.reset.sensorIn = [] := by decide

theorem test_witness_MotionMixFormulaAndLinearity :
    motionBits 0x12#8 0x34#8 0x56#8 =
      ((0x12#8 &&& 0x03#8) <<< 6) ^^^ ((0x56#8 <<< 4) ^^^ ((0x34#8 <<< 2) ^^^ (0x12#8 ^^^ (0x56#8 >>> 2)))) ∧
      motionBits 0x12#8 0x34#8 0x56#8 = 0x37#8 := by decide

theorem test_witness_GeneratorSourceProperties :
    State.reset.fatal = none ∧ (analogMode State.reset).cfg.genMode = .analog ∧ State.reset.cfg.genMode = .motion ∧
      (sensing ⟨0, 0, 0, 0, 0, 0⟩).sensorIn = [⟨0, 0, 0, 0, 0, 0⟩] ∧
      (sensing ⟨1, 0, 0, 0, 0, 0⟩).sensorIn = [⟨1, 0, 0, 0, 0, 0⟩] := by decide

theorem test_witness_GenaAnswersSomeByte :
    (analogMode State.reset).fatal = none ∧ (analogMode State.reset).cfg.genMode = .analog ∧
      State.reset.fatal = none ∧ State.reset.cfg.genMode = .motion := by decide

theorem test_witness_EveryDrawIsFresh :
    (analogMode State.reset).fatal = none ∧ (analogMode State.reset).cfg.genMode = .analog ∧
      (padDrawMode State.reset).cfg.pinRead = .padDraw ∧ (∀ p, Instr.rd 0x25#16 ≠ .rd (base p)) ∧
      ∃ t, exec (.rd 0x25#16) State.reset = .next t :=
  ⟨rfl, rfl, rfl, fun p => by cases p <;> decide, _, rfl⟩

theorem test_witness_NonStoringCommandsFrame :
    (∃ t, exec (.rd 0x23#16) (atB 0x20#8 0x21#8) = .next t) ∧ (∃ t, exec .genm State.reset = .next t) ∧
      (∃ t, exec (.rot 1#8 8#8) State.reset = .next t) ∧ (Instr.rot 1#8 7#8).wf = true :=
  ⟨⟨_, rfl⟩, ⟨_, rfl⟩, ⟨_, rfl⟩, by decide⟩

theorem test_witness_DirectionCommandsFrame :
    (∃ t, exec (.mode .b 7#8 .output) (atB 0x20#8 0x21#8) = .next t) ∧
      (∃ t, exec (.inp .b 8#8) (atB 0x20#8 0x21#8) = .next t) ∧ (0x23#16 : Addr) ≠ base .b + 1#16 ∧ (7#8).toNat < 8 :=
  ⟨⟨_, rfl⟩, ⟨_, rfl⟩, by decide, by decide⟩

theorem test_witness_StateCommandsFrame :
    (∃ t, exec (.tgl .b 8#8) (atB 0x20#8 0x21#8) = .next t) ∧
      (∃ t, exec (.high .b 5#8) (atB 0x20#8 0#8) = .next t ∧ t.port ≠ (atB 0x20#8 0#8).port) ∧
      (0x24#16 : Addr) ≠ base .b ∧ (0x24#16 : Addr) ≠ base .b + 2#16 :=
  ⟨⟨_, rfl⟩, ⟨_, rfl, by decide⟩, by decide, by decide⟩

theorem test_witness_WrFrame :
    (∃ t, exec (.wr 0x23#16 1#8) (atB 0x20#8 0x21#8) = .next t) ∧ decodeAddr 0x35#16 = none ∧
      decodeAddr 0x24#16 = some (ddrr .b) ∧ decodeAddr 0x23#16 = some (pinr .b) ∧ (pinr .b).kind ≠ .ddr :=
  ⟨⟨_, rfl⟩, by decide, by decide, by decide, by decide⟩

theorem test_witness_ParametersStandAndRecordsGrow : ∃ t, step (about 0x05010500 (atB 0x20#8 0#8)) = .next t := ⟨_, rfl⟩

theorem test_witness_PortsAreIndependent :
    touches (.high .b 5#8) ≠ some .a ∧ touches (.rd 0x35#16) ≠ some .g ∧
      ∃ t, exec (.high .b 5#8) (atB 0x20#8 0#8) = .next t := ⟨by decide, by decide, _, rfl⟩

theorem test_witness_StepKeepsResponsesAgreeing :
    (about 0x05010500 (atB 0x20#8 0#8)).ResponsesAgree ∧ (∃ t, step (about 0x05010500 (atB 0x20#8 0#8)) = .next t) ∧
      ({ latched .illegalCommand State.reset with responses := [.fatal .illegalCommand] } : State).ResponsesAgree :=
  ⟨⟨rfl, by simp [about, atB, portState, State.withFetchWord, State.reset]⟩, ⟨_, rfl⟩, ⟨[], 0, rfl, rfl, by simp⟩⟩

theorem test_witness_ResponsesAgreeAtLaunch : (atB 0xA1#8 0x20#8).Launch :=
  ⟨rfl, rfl, rfl, rfl, rfl, nofun⟩

theorem test_witness_StepKeepsTheTraceExplaining :
    ({ atB 0xA1#8 0#8 with
        busTrace := [.rd 0x24#16 0x81#8, .wr 0x24#16 0xA1#8]
        prog := [0x10002500#32] } : State).TraceExplains (Bank.zero.set .b 0x81#8) Bank.zero ∧
      ∃ t, step { atB 0xA1#8 0#8 with
        busTrace := [.rd 0x24#16 0x81#8, .wr 0x24#16 0xA1#8]
        prog := [0x10002500#32] } = .next t :=
  ⟨by unfold State.TraceExplains; decide, _, rfl⟩

theorem test_witness_TraceExplainsAtLaunch : (atB 0xA1#8 0x20#8).Launch := ⟨rfl, rfl, rfl, rfl, rfl, nofun⟩

theorem test_witness_LaunchStatesAreWhatResetLeaves :
    (zeroReset State.reset).Launch ∧ (zeroReset State.reset).cfg.resetRule = .zero ∧
      ¬ (zeroReset (atB 0xA1#8 0x20#8)).Launch :=
  ⟨⟨rfl, rfl, rfl, rfl, rfl, fun _ => ⟨rfl, rfl⟩⟩, rfl, fun h => absurd (h.2.2.2.2.2 rfl).1 (by decide)⟩

end Sys2Proof.Tests
end

/-! PROOFS. The record of responses agrees with `pc` and the latch (O56), and every draw is a new free value (O49). -/

namespace Sys2Proof.Machine

/-! ## The ends of a command, field by field -/

@[simp] theorem complete_pc (r : Response) (s : State) : (complete r s).pc = s.pc + 1 := rfl
@[simp] theorem complete_fatal (r : Response) (s : State) : (complete r s).fatal = s.fatal := rfl
@[simp] theorem complete_responses (r : Response) (s : State) :
    (complete r s).responses = s.responses ++ [r] := rfl
@[simp] theorem complete_draws (r : Response) (s : State) : (complete r s).draws = s.draws := rfl
@[simp] theorem answerLatched_fatal (c : Cause) (s : State) : (answerLatched c s).fatal = s.fatal := rfl
@[simp] theorem answerLatched_responses (c : Cause) (s : State) :
    (answerLatched c s).responses = s.responses ++ [.fatal c] := rfl

/-! ## The record of responses -/

theorem State.responsesAgree_of_live {s : State} (h : s.fatal = none) :
    s.ResponsesAgree ↔ s.responses.length = s.pc ∧ ∀ r ∈ s.responses, r.isFatal = false := by
  simp [State.ResponsesAgree, h]

theorem State.responsesAgree_of_latched {s : State} {c : Cause} (h : s.fatal = some c) :
    s.ResponsesAgree ↔ ∃ completed k, s.responses = completed ++ List.replicate (k + 1) (Response.fatal c) ∧
      completed.length = s.pc ∧ ∀ r ∈ completed, r.isFatal = false := by
  simp [State.ResponsesAgree, h]

/-- A completed command adds the one response that the new `pc` counts (rules R13, R112). -/
theorem complete_keeps_responsesAgree {s : State} {r : Response} (hf : s.fatal = none) (hr : r.isFatal = false)
    (h : s.ResponsesAgree) : (complete r s).ResponsesAgree := by
  obtain ⟨hlen, hall⟩ := (State.responsesAgree_of_live hf).mp h
  refine (State.responsesAgree_of_live (by simpa using hf)).mpr ⟨by simp [hlen], fun x hx => ?_⟩
  rcases List.mem_append.mp hx with hx | hx
  · exact hall x hx
  · rwa [List.mem_singleton.mp hx]

/-- Fault entry closes the completed commands with the first response of its cause (rule R206). -/
theorem raiseFatal_keeps_responsesAgree {s : State} (c : Cause) (hf : s.fatal = none) (h : s.ResponsesAgree) :
    (raiseFatal c s).ResponsesAgree := by
  obtain ⟨hlen, hall⟩ := (State.responsesAgree_of_live hf).mp h
  exact (State.responsesAgree_of_latched rfl).mpr ⟨s.responses, 0, rfl, hlen, hall⟩

/-- While a cause is latched, every further response is that cause (rule R207). -/
theorem answerLatched_keeps_responsesAgree {s : State} {c : Cause} (hf : s.fatal = some c) (h : s.ResponsesAgree) :
    (answerLatched c s).ResponsesAgree := by
  obtain ⟨completed, k, hrec, hlen, hall⟩ := (State.responsesAgree_of_latched hf).mp h
  refine (State.responsesAgree_of_latched (by simpa using hf)).mpr ⟨completed, k + 1, ?_, hlen, hall⟩
  rw [answerLatched_responses, hrec, List.append_assoc, ← List.replicate_succ']

/-- The record depends on the latch, `pc` and the responses, none of which the work of a command touches. -/
theorem Works.responsesAgree {q : Option PortName} {s u : State} (w : Works q s u) (h : s.ResponsesAgree) :
    u.ResponsesAgree := by
  unfold State.ResponsesAgree at *
  rwa [w.fatal, w.responses, w.pc]

/-- Settles O56: each answer of a step, as `step_cases` lists them, keeps the record. -/
theorem stepKeepsResponsesAgreeing : Obligations.StepKeepsResponsesAgreeing := by
  intro s t h hstep
  rcases step_cases hstep with ⟨c, hf, rfl⟩ | ⟨hf, w, -, ⟨why, -, rfl⟩ | ⟨i, -, hlive⟩⟩
  · exact answerLatched_keeps_responsesAgree hf h
  · exact raiseFatal_keeps_responsesAgree _ hf h
  · rcases hlive with ⟨-, rfl⟩ | ⟨-, -, rfl⟩ | ⟨-, -, r, u, rfl, hr, hw⟩
    · exact raiseFatal_keeps_responsesAgree _ hf h
    · exact raiseFatal_keeps_responsesAgree _ hf h
    · exact complete_keeps_responsesAgree (hw.fatal.trans hf) hr (hw.responsesAgree h)

/-! ## The count of draws -/

@[simp] theorem decodeAddr_base (p : PortName) : decodeAddr (base p) = some (pinr p) := by
  simpa using decodeAddr_addr (pinr p)

theorem readAt_of_mapped {addr : Addr} {r : Reg} (h : decodeAddr addr = some r) (s : State) :
    readAt addr s = complete (.byte (memRead r s).1) (memRead r s).2 := by
  simp [readAt, h]

theorem readAt_of_unmapped {addr : Addr} (h : decodeAddr addr = none) (s : State) :
    readAt addr s = complete .notSelected s := by
  simp [readAt, h]

/-- A read of PINx under `pad_draw`: the Output bits are `port[p]`'s, the Input bits are drawn (rule R57). -/
theorem memRead_pinr_padDraw (p : PortName) {s : State} (h : s.cfg.pinRead = .padDraw) :
    memRead (pinr p) s =
      ((s.port.get p &&& s.ddr.get p) ||| (Config.freeByte s.draws &&& ~~~(s.ddr.get p)),
        (s.takeDraws 1).logBus (.rd (pinr p).addr
          ((s.port.get p &&& s.ddr.get p) ||| (Config.freeByte s.draws &&& ~~~(s.ddr.get p))))) := by
  simp [memRead, readValue, pinr, draw8, h]

/-- Only a read of a PINx draws (rule R57). -/
theorem memRead_draws_of_ne_pin {r : Reg} (h : r.kind ≠ .pin) (s : State) : (memRead r s).2.draws = s.draws := by
  obtain ⟨p, k⟩ := r
  cases k with
  | pin => exact absurd rfl h
  | ddr => rfl
  | port => rfl

@[simp] theorem memWrite_draws (r : Reg) (v : Byte) (s : State) : (memWrite r v s).draws = s.draws := by
  rcases memWrite_state r v s with ⟨-, e⟩ | ⟨-, e⟩ | ⟨-, e⟩ <;> rw [e] <;> rfl

/-- An address that is no port's base decodes to no PINx (rule R51). -/
theorem kind_ne_pin_of_ne_base {addr : Addr} {r : Reg} (hb : ∀ p, addr ≠ base p) (hd : decodeAddr addr = some r) :
    r.kind ≠ .pin := by
  obtain ⟨p, k⟩ := r
  rintro rfl
  exact hb p ((addr_of_decodeAddr hd).symm.trans (addr_pinr p))

theorem readAt_draws_of_ne_base {addr : Addr} (hb : ∀ p, addr ≠ base p) (s : State) :
    (readAt addr s).draws = s.draws := by
  cases hd : decodeAddr addr with
  | none => rw [readAt_of_unmapped hd, complete_draws]
  | some r => rw [readAt_of_mapped hd, complete_draws, memRead_draws_of_ne_pin (kind_ne_pin_of_ne_base hb hd)]

@[simp] theorem writeAt_draws (addr : Addr) (data : Byte) (s : State) : (writeAt addr data s).draws = s.draws := by
  unfold writeAt
  split
  · rfl
  · rw [complete_draws, memWrite_draws]

@[simp] theorem setMode_draws (p : PortName) (idx : Byte) (m : IOMode) (s : State) :
    (setMode p idx m s).draws = s.draws := by
  rw [setMode_eq]

@[simp] theorem toggle_draws (p : PortName) (idx : Byte) (s : State) : (toggle p idx s).draws = s.draws :=
  memWrite_draws _ _ _

@[simp] theorem guardedToggle_draws (test : Config → Byte → Byte → Byte → Bool) (p : PortName) (idx : Byte)
    (s : State) : (guardedToggle test p idx s).draws = s.draws := by
  obtain ⟨-, -, -, -, -, -, hdraws⟩ := guardedToggle_frame test p idx s
  exact hdraws

@[simp] theorem answerByte_draws (v : Option Byte) (s : State) : (answerByte v s).draws = s.draws := by
  cases v <;> rfl

theorem legalOnly_draws {ok : Bool} {body : State → State} {s : State} (hb : (body s).draws = s.draws) :
    (legalOnly ok body s).draws = s.draws := by
  cases ok with
  | false => rfl
  | true => exact hb

theorem execute_draws {body : State → State} {s t : State} (hb : (body s).draws = s.draws)
    (h : execute body s = .next t) : t.draws = s.draws := by
  unfold execute at h
  split at h
  · cases h; rfl
  · cases h; exact hb

/-- Only `GENA`, `GENM` and a read of a PINx draw (rules R57, R183, R186). -/
theorem exec_draws {i : Instr} {s t : State} (hgena : i ≠ .gena) (hgenm : i ≠ .genm)
    (hpin : ∀ p, i ≠ .rd (base p)) (h : exec i s = .next t) : t.draws = s.draws := by
  cases i with
  | acq | pin | xor | xsh | pshl | pshr => exact execute_draws (complete_draws _ _) h
  | mode | out | inp => exact execute_draws (legalOnly_draws (setMode_draws _ _ _ _)) h
  | tgl p idx =>
    refine execute_draws (legalOnly_draws ?_) h
    rw [complete_draws, toggle_draws]
  | high | low => exact execute_draws (guardedToggle_draws _ _ _ _) h
  | rd addr => exact execute_draws (readAt_draws_of_ne_base (fun p hp => hpin p (congrArg Instr.rd hp)) s) h
  | wr addr data => exact execute_draws (writeAt_draws addr data s) h
  | rot b n => exact execute_draws (answerByte_draws _ s) h
  | genm => exact absurd rfl hgenm
  | gena => exact absurd rfl hgena

/-- Settles O49: the two drawing commands by their whole next states, the rest by `exec_draws`. -/
theorem everyDrawIsFresh : Obligations.EveryDrawIsFresh := by
  intro s hs
  refine ⟨fun hm => ⟨_, exec_gena hs hm, rfl, rfl⟩, fun hp p => ⟨_, exec_rd hs, ?_⟩,
    fun _ _ hgena hgenm hpin h => exec_draws hgena hgenm hpin h⟩
  rw [readAt_of_mapped (decodeAddr_base p), memRead_pinr_padDraw p hp]
  exact ⟨rfl, rfl⟩

end Sys2Proof.Machine

/-! PROOFS. Steps (O5, O6), what reset leaves (O12, O13, O57, O59, O60), the mixer commands (O42), the records and the
pads along a step (O54, O18), and the independence of the ports (O55). -/

namespace Sys2Proof.Machine

/-! ## One step -/

/-- A step presents the word at `pc` (rule R30). -/
theorem step_of_fetch {s : State} {w : Word} (h : s.prog[s.pc]? = some w) : step s = present w s := by
  simp [step, runNext, fetch, h]

/-- With no word at `pc` the run has ended (rule R246; log entry 2). -/
theorem step_of_end {s : State} (h : s.prog.length ≤ s.pc) : step s = .fault .runEnded := by
  simp [step, runNext, fetch, List.getElem?_eq_none h]

/-- A presented command is executed; a latched one answers its cause either way (rules R112, R207). -/
theorem present_command {w : Word} {i : Instr} (h : decode w = .command i) (s : State) : present w s = exec i s := by
  cases hf : s.fatal with
  | some c => rw [exec_latched i hf]; simp [present, hf]
  | none => simp [present, hf, h]

/-- Every presented word is answered by a next state (rules R205, R207). -/
theorem exists_present_eq_next (w : Word) (s : State) : ∃ t, present w s = .next t := by
  cases hf : s.fatal with
  | some c => exact ⟨answerLatched c s, by simp [present, hf]⟩
  | none =>
    cases hd : decode w with
    | reserved why => exact ⟨_, present_reserved hf hd⟩
    | command i =>
      obtain ⟨t, ht, -⟩ := exec_live i hf
      exact ⟨t, (present_command hd s).trans ht⟩

theorem exists_step_eq_next {s : State} (h : s.pc < s.prog.length) : ∃ t, step s = .next t := by
  rw [step_of_fetch (List.getElem?_eq_getElem h)]
  exact exists_present_eq_next _ s

/-- Settles O5: a step presents the word at `pc`, and a presented command is executed. -/
theorem stepRunsTheDecodedCommand : Obligations.StepRunsTheDecodedCommand := fun s _ hw =>
  ⟨step_of_fetch hw, fun _ hd => (step_of_fetch hw).trans (present_command hd s)⟩

/-- Settles O6: with a word at `pc` a step answers a next state, and without one it is `runEnded`. -/
theorem stepStopsOnlyAtTheEndOfTheRun : Obligations.StepStopsOnlyAtTheEndOfTheRun := by
  intro s
  rcases Nat.lt_or_ge s.pc s.prog.length with hpc | hpc
  · obtain ⟨t, ht⟩ := exists_step_eq_next hpc
    simp [ht, hpc]
  · simp [step_of_end hpc, hpc]

/-! ## Reset and launch -/

/-- Under `P_RESET = any` reset leaves any bytes (rule R33). -/
theorem resetEvent_banks_of_any (d q : Bank) {s : State} (h : s.cfg.resetRule = .any) :
    (resetEvent d q s).ddr = d ∧ (resetEvent d q s).port = q := by
  simp [resetEvent, h]

/-- Under `P_RESET = zero` reset leaves 0x00 everywhere (rule R33). -/
theorem resetEvent_banks_of_zero (d q : Bank) {s : State} (h : s.cfg.resetRule = .zero) :
    (resetEvent d q s).ddr = Bank.zero ∧ (resetEvent d q s).port = Bank.zero := by
  simp [resetEvent, h]

theorem resetEvent_launch (d q : Bank) (s : State) : (resetEvent d q s).Launch :=
  ⟨rfl, rfl, rfl, rfl, rfl, resetEvent_banks_of_zero d q⟩

/-- A launch state is what a reset that leaves its own banks makes of it (rules R33, R230). -/
theorem State.Launch.resetEvent_self {s : State} (h : s.Launch) : resetEvent s.ddr s.port s = s := by
  obtain ⟨cfg, prog, pc, ddr, port, fatal, responses, busTrace, collabTrace, sensorIn, draws⟩ := s
  obtain ⟨rfl, rfl, rfl, rfl, rfl, hzero⟩ := h
  cases hr : cfg.resetRule with
  | any => simp [resetEvent, hr]
  | zero =>
    obtain ⟨rfl, rfl⟩ := hzero hr
    simp [resetEvent, hr]

theorem State.Launch.responsesAgree {s : State} (h : s.Launch) : s.ResponsesAgree := by
  obtain ⟨hfatal, hpc, hresp, -⟩ := h
  exact (State.responsesAgree_of_live hfatal).mpr (by simp [hresp, hpc])

/-- An empty trace explains the banks it starts from (rule R61). -/
theorem State.Launch.traceExplains {s : State} (h : s.Launch) : s.TraceExplains s.ddr s.port := by
  obtain ⟨-, -, -, hbus, -⟩ := h
  rw [State.TraceExplains, hbus, replay]

theorem reset_eq_resetEvent : State.reset = resetEvent Bank.zero Bank.zero State.reset := rfl

theorem reset_launch : State.reset.Launch := resetEvent_launch Bank.zero Bank.zero State.reset

/-- Settles O12: the two reset rules, and PINx read as `port[p]`. -/
theorem resetLeavesTheTableOfValues : Obligations.ResetLeavesTheTableOfValues := by
  rintro d q s _ rfl
  refine ⟨rfl, rfl, rfl, resetEvent_banks_of_any d q, fun hz p => ?_, fun p hp => ?_⟩
  · obtain ⟨hddr, hport⟩ := resetEvent_banks_of_zero d q hz
    simp [hddr, hport]
  · rw [memRead_pinr_outputState p hp]

/-- Settles O13: `State.reset` is a fixed point of the reset event that leaves zero banks. -/
theorem resetStateIsALaunchState : Obligations.ResetStateIsALaunchState :=
  ⟨reset_launch, reset_eq_resetEvent, fun p => ⟨Bank.zero_get p, Bank.zero_get p⟩, rfl, rfl, rfl, rfl⟩

/-- Settles O57: no response is recorded and `pc` is 0. -/
theorem responsesAgreeAtLaunch : Obligations.ResponsesAgreeAtLaunch :=
  ⟨fun _ h => h.responsesAgree, reset_launch.responsesAgree⟩

/-- Settles O59: the trace is empty. -/
theorem traceExplainsAtLaunch : Obligations.TraceExplainsAtLaunch :=
  ⟨fun _ h => h.traceExplains, reset_launch.traceExplains⟩

/-- Settles O60: reset makes a launch state, and keeps a launch state when it leaves that state's own banks. -/
theorem launchStatesAreWhatResetLeaves : Obligations.LaunchStatesAreWhatResetLeaves := by
  refine ⟨resetEvent_launch, fun s h => ⟨s.ddr, s.port, h.resetEvent_self⟩, fun s h hz p => ?_⟩
  obtain ⟨-, -, -, -, -, hzero⟩ := h
  obtain ⟨hddr, hport⟩ := hzero hz
  simp [hddr, hport]

/-! ## Mixer commands -/

/-- Settles O42: the byte of each command is its mixer function of the operands. -/
theorem mixerCommandsReadNoState : Obligations.MixerCommandsReadNoState := by
  rintro i hwf (⟨b, n, rfl⟩ | ⟨a, b, rfl⟩ | ⟨a, rfl⟩ | ⟨v, c, rfl⟩ | ⟨v, c, rfl⟩)
  · obtain ⟨h1, h7⟩ : 1 ≤ n.toNat ∧ n.toNat ≤ 7 := by simpa [Instr.wf] using hwf
    exact ⟨_, fun s hs => exec_rot hs h1 h7⟩
  · exact ⟨_, fun s hs => exec_xor hs⟩
  · exact ⟨_, fun s hs => exec_xsh hs⟩
  · exact ⟨_, fun s hs => exec_pshl hs⟩
  · exact ⟨_, fun s hs => exec_pshr hs⟩

/-! ## The records along a step -/

/-- A step does some work, then adds one response and settles `pc` and the latch: so every end of a command leaves the
other fields as the work left them (rules R112, R206, R207). -/
theorem step_eq_work_then_response {s t : State} (h : step s = .next t) :
    ∃ q u r n f, Works q s u ∧ t = { u with responses := u.responses ++ [r], pc := n, fatal := f } := by
  rcases step_cases h with ⟨c, -, rfl⟩ | ⟨-, w, -, ⟨why, -, rfl⟩ | ⟨i, -, hlive⟩⟩
  · exact ⟨none, s, _, _, _, .nil, rfl⟩
  · exact ⟨none, s, _, _, _, .nil, rfl⟩
  · rcases hlive with ⟨-, rfl⟩ | ⟨-, -, rfl⟩ | ⟨-, -, r, u, rfl, -, hw⟩
    · exact ⟨none, s, _, _, _, .nil, rfl⟩
    · exact ⟨none, s, _, _, _, .nil, rfl⟩
    · exact ⟨touches i, u, _, _, _, hw, rfl⟩

/-- Settles O54: the work of a step grows the traces and its end adds one response. -/
theorem parametersStandAndRecordsGrow : Obligations.ParametersStandAndRecordsGrow := by
  intro s t h
  obtain ⟨q, u, r, n, f, hw, rfl⟩ := step_eq_work_then_response h
  exact ⟨hw.cfg, hw.prog, hw.responses ▸ List.prefix_append _ _, hw.grows⟩

/-! ## The four-state machine of a pin -/

@[simp] theorem memWrite_busTrace (r : Reg) (v : Byte) (s : State) :
    (memWrite r v s).busTrace = s.busTrace ++ [.wr r.addr v] := by
  rcases memWrite_state r v s with ⟨-, e⟩ | ⟨-, e⟩ | ⟨-, e⟩ <;> rw [e] <;> rfl

/-- A write leaves the registers of every other port (rules R21, R58). -/
theorem memWrite_get_of_ne {r : Reg} {p : PortName} (h : p ≠ r.port) (v : Byte) (s : State) :
    (memWrite r v s).ddr.get p = s.ddr.get p ∧ (memWrite r v s).port.get p = s.port.get p := by
  rcases memWrite_state r v s with ⟨-, e⟩ | ⟨-, e⟩ | ⟨-, e⟩ <;> rw [e] <;> simp [Bank.get_set_ne _ _ h]

/-- A pad is a view of the two registers of its port (rule R25). -/
theorem State.pad_congr {s t : State} {p : PortName} (hd : t.ddr.get p = s.ddr.get p)
    (hp : t.port.get p = s.port.get p) (i : Fin 8) : t.pad p i = s.pad p i := by
  rw [State.pad, State.pad, hd, hp]

/-- The work of a command adds to the bus trace, and a port without a write among the new events keeps its registers
(rules R58, R60). -/
theorem Works.newEvents {q : Option PortName} {s u : State} (w : Works q s u) :
    ∃ es, u.busTrace = s.busTrace ++ es ∧
      ∀ p, (∀ k v, BusEvent.wr (base p + RegKind.offset k) v ∉ es) →
        u.ddr.get p = s.ddr.get p ∧ u.port.get p = s.port.get p := by
  induction w with
  | nil => exact ⟨[], by simp, fun p _ => ⟨rfl, rfl⟩⟩
  | read r h w ih =>
    obtain ⟨es, htrace, hregs⟩ := ih
    refine ⟨es ++ [_], by rw [memRead_busTrace, htrace, List.append_assoc], fun p hno => ?_⟩
    rw [memRead_ddr, memRead_port]
    exact hregs p fun k v hmem => hno k v (List.mem_append_left _ hmem)
  | @write u r v h w ih =>
    obtain ⟨es, htrace, hregs⟩ := ih
    refine ⟨es ++ [_], by rw [memWrite_busTrace, htrace, List.append_assoc], fun p hno => ?_⟩
    have hne : p ≠ r.port := by
      rintro rfl
      exact hno r.kind v (List.mem_append_right _ (List.mem_singleton_self _))
    obtain ⟨hd, hp⟩ := memWrite_get_of_ne hne v u
    rw [hd, hp]
    exact hregs p fun k v hmem => hno k v (List.mem_append_left _ hmem)
  | emit e w ih => exact ih
  | draw n w ih => exact ih
  | readings rest w ih => exact ih

/-- A step without a recorded write to a register of a port keeps the pads of that port (rule R25). -/
theorem step_keeps_pad {s t : State} (h : step s = .next t) {p : PortName}
    (hno : ∀ k v, BusEvent.wr (base p + RegKind.offset k) v ∉ t.busTrace.drop s.busTrace.length) (i : Fin 8) :
    t.pad p i = s.pad p i := by
  obtain ⟨q, u, r, n, f, hw, rfl⟩ := step_eq_work_then_response h
  obtain ⟨es, htrace, hregs⟩ := hw.newEvents
  simp only [htrace, List.drop_left] at hno
  obtain ⟨hd, hp⟩ := hregs p hno
  exact State.pad_congr hd hp i

/-- The four pad states are the four pairs of a direction bit and an output bit (rule R25). -/
theorem padOf_eq_iff (d o : Bool) :
    (padOf d o = .inFloat ↔ d = false ∧ o = false) ∧ (padOf d o = .inPullup ↔ d = false ∧ o = true) ∧
      (padOf d o = .outLow ↔ d = true ∧ o = false) ∧ (padOf d o = .outHigh ↔ d = true ∧ o = true) := by
  cases d <;> cases o <;> decide

/-- Settles O18: the pad states by `padOf_eq_iff`, the writes bit by bit, and `step_keeps_pad`. -/
theorem pinStateMachine : Obligations.PinStateMachine := by
  refine ⟨?_, fun s t p i v => ⟨?_, ?_, ?_, ?_⟩, fun s t p i h hno => step_keeps_pad h hno i⟩
  · rintro s p i _ _ rfl rfl
    exact padOf_eq_iff _ _
  · rintro rfl
    simp
  · rintro rfl
    simp
  · rintro rfl
    cases hv : v[i.val] <;> simp [hv]
  · rintro r rfl
    exact State.pad_congr (by rw [memRead_ddr]) (by rw [memRead_port]) i

/-! ## The independence of the ports -/

/-- A body that neither sees nor touches the registers of the port `p` (rule R21). -/
def IgnoresPort (p : PortName) (body : State → State) : Prop :=
  ∀ s d q, body (s.overwrite p d q) = (body s).overwrite p d q

@[simp] theorem State.overwrite_cfg (s : State) (p : PortName) (d q : Byte) : (s.overwrite p d q).cfg = s.cfg := rfl
@[simp] theorem State.overwrite_fatal (s : State) (p : PortName) (d q : Byte) :
    (s.overwrite p d q).fatal = s.fatal := rfl

@[simp] theorem State.overwrite_self (s : State) (p : PortName) :
    s.overwrite p (s.ddr.get p) (s.port.get p) = s := by
  simp [State.overwrite]

theorem complete_overwrite (r : Response) (s : State) (p : PortName) (d q : Byte) :
    complete r (s.overwrite p d q) = (complete r s).overwrite p d q := rfl

theorem ignoresPort_complete (p : PortName) (r : Response) : IgnoresPort p (complete r) := fun s =>
  complete_overwrite r s p

theorem ignoresPort_answerByte (p : PortName) (v : Option Byte) : IgnoresPort p (answerByte v) := by
  intro s d q
  cases v <;> rfl

theorem ignoresPort_legalOnly {p : PortName} {body : State → State} (ok : Bool) (hb : IgnoresPort p body) :
    IgnoresPort p (legalOnly ok body) := by
  intro s d q
  cases ok with
  | false => rfl
  | true => exact hb s d q

theorem ignoresPort_inMode {p : PortName} {body : State → State} (m : GenMode) (hb : IgnoresPort p body) :
    IgnoresPort p (inMode m body) := by
  intro s d q
  unfold inMode
  rw [State.overwrite_cfg]
  split
  · exact hb s d q
  · rfl

theorem ignoresPort_setMode {p o : PortName} (h : o ≠ p) (idx : Byte) (m : IOMode) :
    IgnoresPort p (setMode o idx m) := by
  intro s d q
  unfold setMode
  rw [memRead_overwrite (r := ddrr o) h, memWrite_overwrite (r := ddrr o) h, complete_overwrite]

theorem ignoresPort_toggle {p o : PortName} (h : o ≠ p) (idx : Byte) : IgnoresPort p (toggle o idx) := fun s =>
  memWrite_overwrite (r := pinr o) h (mask idx) s

theorem ignoresPort_guardedToggle {p o : PortName} (h : o ≠ p) (test : Config → Byte → Byte → Byte → Bool)
    (idx : Byte) : IgnoresPort p (guardedToggle test o idx) := by
  intro s d q
  unfold guardedToggle
  simp only [memRead_overwrite (r := ddrr o) h, memRead_overwrite (r := portr o) h, State.overwrite_cfg]
  split
  · split
    · rw [ignoresPort_toggle h, complete_overwrite]
    · rw [complete_overwrite]
  · rw [complete_overwrite]

theorem ignoresPort_readAt {p : PortName} {addr : Addr} (h : (decodeAddr addr).map Reg.port ≠ some p) :
    IgnoresPort p (readAt addr) := by
  intro s d q
  cases hd : decodeAddr addr with
  | none => rw [readAt_of_unmapped hd, readAt_of_unmapped hd, complete_overwrite]
  | some r =>
    have hr : r.port ≠ p := by simpa [hd] using h
    rw [readAt_of_mapped hd, readAt_of_mapped hd, memRead_overwrite hr, complete_overwrite]

theorem writeAt_of_mapped {addr : Addr} {r : Reg} (h : decodeAddr addr = some r) (data : Byte) (s : State) :
    writeAt addr data s = complete .done (memWrite r data s) := by
  simp [writeAt, h]

theorem writeAt_of_unmapped {addr : Addr} (h : decodeAddr addr = none) (data : Byte) (s : State) :
    writeAt addr data s = complete .notSelected s := by
  simp [writeAt, h]

theorem ignoresPort_writeAt {p : PortName} {addr : Addr} (data : Byte)
    (h : (decodeAddr addr).map Reg.port ≠ some p) : IgnoresPort p (writeAt addr data) := by
  intro s d q
  cases hd : decodeAddr addr with
  | none => rw [writeAt_of_unmapped hd, writeAt_of_unmapped hd, complete_overwrite]
  | some r =>
    have hr : r.port ≠ p := by simpa [hd] using h
    rw [writeAt_of_mapped hd, writeAt_of_mapped hd, memWrite_overwrite hr, complete_overwrite]

/-- A reading is taken from the sensor or drawn, and both leave the registers (rule R183). -/
theorem ignoresPort_dropReading (p : PortName) : IgnoresPort p dropReading := by
  rintro ⟨_, _, _, _, _, _, _, _, _, sensorIn, _⟩ d q
  cases sensorIn <;> rfl

/-- The rule common to all commands keeps a body's blindness (rules R112, R207). -/
theorem execute_overwrite {p : PortName} {body : State → State} (hb : IgnoresPort p body) {s t : State}
    (h : execute body s = .next t) (d q : Byte) :
    execute body (s.overwrite p d q) = .next (t.overwrite p d q) := by
  unfold execute at *
  rw [State.overwrite_fatal]
  split at h
  · cases h
    rfl
  · cases h
    rw [hb s d q]

/-- A command that is not on the port `p` does the same whatever the registers of `p` hold (rule R21). -/
theorem exec_overwrite {i : Instr} {p : PortName} (h : touches i ≠ some p) {s t : State} (hx : exec i s = .next t)
    (d q : Byte) : exec i (s.overwrite p d q) = .next (t.overwrite p d q) := by
  have hport : ∀ {o : PortName}, some o ≠ some p → o ≠ p := fun ho e => ho (congrArg some e)
  cases i with
  | acq | pin | xor | xsh | pshl | pshr => exact execute_overwrite (ignoresPort_complete p _) hx d q
  | mode | out | inp =>
    exact execute_overwrite (ignoresPort_legalOnly _ (ignoresPort_setMode (hport h) _ _)) hx d q
  | tgl o idx =>
    refine execute_overwrite (ignoresPort_legalOnly _ fun s d q => ?_) hx d q
    rw [ignoresPort_toggle (hport h), complete_overwrite]
  | high | low => exact execute_overwrite (ignoresPort_guardedToggle (hport h) _ _) hx d q
  | rd addr => exact execute_overwrite (ignoresPort_readAt h) hx d q
  | wr addr data => exact execute_overwrite (ignoresPort_writeAt data h) hx d q
  | rot b n => exact execute_overwrite (ignoresPort_answerByte p _) hx d q
  | genm =>
    refine execute_overwrite (ignoresPort_inMode _ fun s d q => ?_) hx d q
    exact congrArg (complete _) (ignoresPort_dropReading p (emitMotionSession s) d q)
  | gena => exact execute_overwrite (ignoresPort_inMode _ fun s d q => rfl) hx d q

/-- Settles O55: the second clause is `exec_overwrite`; the first is its case where the registers of `p` are overwritten
with what they hold. -/
theorem portsAreIndependent : Obligations.PortsAreIndependent := by
  intro i p s t htouch hx
  have hsame : t = t.overwrite p (s.ddr.get p) (s.port.get p) := by
    have := exec_overwrite htouch hx (s.ddr.get p) (s.port.get p)
    rw [State.overwrite_self, hx] at this
    exact Host.Outcome.next.inj this
  refine ⟨?_, ?_, exec_overwrite htouch hx⟩
  · rw [hsame]
    exact Bank.get_set_self _ _ _
  · rw [hsame]
    exact Bank.get_set_self _ _ _

end Sys2Proof.Machine

/-! PROOFS. The bus trace explains the registers (O58); the register space: the address decode, reads and writes (O14 to
O17); the frames of the commands that store nothing and of `WR` (O50, O53). -/

namespace Sys2Proof.Machine

/-! ## Writes, the fields they leave -/

/-- A write touches the two banks and the bus trace only (rule R58). -/
theorem memWrite_eq (r : Reg) (v : Byte) (s : State) :
    memWrite r v s = { s with
      ddr := (memWrite r v s).ddr
      port := (memWrite r v s).port
      busTrace := s.busTrace ++ [.wr r.addr v] } := by
  rcases memWrite_state r v s with ⟨-, e⟩ | ⟨-, e⟩ | ⟨-, e⟩ <;> rw [e] <;> rfl

@[simp] theorem memWrite_cfg (r : Reg) (v : Byte) (s : State) : (memWrite r v s).cfg = s.cfg := by
  rw [memWrite_eq]

@[simp] theorem memWrite_collabTrace (r : Reg) (v : Byte) (s : State) :
    (memWrite r v s).collabTrace = s.collabTrace := by
  rw [memWrite_eq]

@[simp] theorem memWrite_sensorIn (r : Reg) (v : Byte) (s : State) : (memWrite r v s).sensorIn = s.sensorIn := by
  rw [memWrite_eq]

/-! ## The bus trace explains the registers -/

/-- The invariant is about the parameters, the bus trace and the two banks only. -/
theorem State.TraceExplains.congr {d q : Bank} {s t : State} (h : s.TraceExplains d q) (hcfg : t.cfg = s.cfg)
    (htrace : t.busTrace = s.busTrace) (hddr : t.ddr = s.ddr) (hport : t.port = s.port) : t.TraceExplains d q := by
  unfold State.TraceExplains at *
  rwa [hcfg, htrace, hddr, hport]

/-- One recorded access more keeps the invariant when its replay on the old banks gives the new ones (rule R61). -/
theorem State.TraceExplains.append {d q : Bank} {s t : State} {e : BusEvent} (h : s.TraceExplains d q)
    (hcfg : t.cfg = s.cfg) (htrace : t.busTrace = s.busTrace ++ [e])
    (he : replayEvent s.cfg e s.ddr s.port = some (t.ddr, t.port)) : t.TraceExplains d q := by
  unfold State.TraceExplains at *
  rw [hcfg, htrace, replay_append, h]
  exact he

/-- The replay accepts a read of the machine and keeps the banks (rule R57). -/
theorem replayEvent_memRead (r : Reg) (s : State) :
    replayEvent s.cfg (.rd r.addr (memRead r s).1) s.ddr s.port = some (s.ddr, s.port) := by
  simp [replayEvent, readAllowed_memRead]

/-- The replay of a write does to the banks what the write did (rule R58). -/
theorem replayEvent_memWrite (r : Reg) (v : Byte) (s : State) :
    replayEvent s.cfg (.wr r.addr v) s.ddr s.port = some ((memWrite r v s).ddr, (memWrite r v s).port) := by
  rcases memWrite_state r v s with ⟨hk, e⟩ | ⟨hk, e⟩ | ⟨hk, e⟩ <;> rw [e] <;> simp [replayEvent, hk]

/-- The work of a command keeps the invariant access by access (rule R61). -/
theorem Works.traceExplains {p : Option PortName} {d q : Bank} {s u : State} (w : Works p s u)
    (h : s.TraceExplains d q) : u.TraceExplains d q := by
  induction w with
  | nil => exact h
  | @read u r _ _ ih =>
    exact ih.append (memRead_cfg r u) (memRead_busTrace r u)
      (by rw [memRead_ddr, memRead_port]; exact replayEvent_memRead r u)
  | @write u r v _ _ ih =>
    exact ih.append (memWrite_cfg r v u) (memWrite_busTrace r v u) (replayEvent_memWrite r v u)
  | emit e _ ih => exact ih.congr rfl rfl rfl rfl
  | draw n _ ih => exact ih.congr rfl rfl rfl rfl
  | readings rest _ ih => exact ih.congr rfl rfl rfl rfl

/-- Settles O58: a step is some work, which keeps the invariant, and an end that touches no bank and no bus event. -/
theorem stepKeepsTheTraceExplaining : Obligations.StepKeepsTheTraceExplaining := by
  intro d q s t h hstep
  obtain ⟨p, u, r, n, f, hw, rfl⟩ := step_eq_work_then_response hstep
  exact (hw.traceExplains h).congr rfl rfl rfl rfl

/-! ## The address decode -/

/-- The port codes are the numbers of the ports (rule R82). -/
theorem PortName.ofCode_ofNat_eq_some_iff {c : Nat} (hc : c < 256) (p : PortName) :
    PortName.ofCode (BitVec.ofNat 8 c) = some p ↔ p.code.toNat = c := by
  have hmod : (BitVec.ofNat 8 c).toNat = c := by simp [Nat.mod_eq_of_lt hc]
  constructor
  · intro h
    rw [PortName.code_of_ofCode h, hmod]
  · rintro rfl
    rw [BitVec.ofNat_toNat, BitVec.setWidth_eq, PortName.ofCode_code]

/-- The offsets are the numbers of the register kinds (rule R52). -/
theorem RegKind.ofOffset_eq_some_iff (n : Nat) (k : RegKind) :
    RegKind.ofOffset n = some k ↔ k.offset.toNat = n := by
  constructor
  · intro h
    unfold RegKind.ofOffset at h
    split at h <;> cases h <;> rfl
  · rintro rfl
    cases k <;> rfl

theorem Reg.ofCode_eq_some_iff {c : Nat} (hc : c < 256) (n : Nat) (r : Reg) :
    Reg.ofCode c n = some r ↔ r.port.code.toNat = c ∧ r.kind.offset.toNat = n := by
  rw [← PortName.ofCode_ofNat_eq_some_iff hc, ← RegKind.ofOffset_eq_some_iff]
  obtain ⟨p, k⟩ := r
  unfold Reg.ofCode
  cases PortName.ofCode (BitVec.ofNat 8 c) <;> cases RegKind.ofOffset n <;> simp

/-- The address decode as the two ranges of rule R52. -/
theorem decodeAddr_eq_some_iff (a : Addr) (r : Reg) :
    decodeAddr a = some r ↔
      (0x20 ≤ a.toNat ∧ a.toNat ≤ 0x34 ∧
        r.port.code.toNat = (a.toNat - 0x20) / 3 ∧ r.kind.offset.toNat = (a.toNat - 0x20) % 3) ∨
      (0x100 ≤ a.toNat ∧ a.toNat ≤ 0x10B ∧
        r.port.code.toNat = 7 + (a.toNat - 0x100) / 3 ∧ r.kind.offset.toNat = (a.toNat - 0x100) % 3) := by
  unfold decodeAddr
  split
  · next hlow =>
    rw [Reg.ofCode_eq_some_iff (by omega)]
    omega
  · next hlow =>
    split
    · next hhigh =>
      rw [Reg.ofCode_eq_some_iff (by omega)]
      omega
    · next hhigh =>
      simp only [reduceCtorEq, false_iff]
      omega

/-- The bases of the ports A to G (rule R51). -/
theorem base_toNat_of_le (p : PortName) (h : p.code.toNat ≤ 6) : (base p).toNat = 0x20 + 3 * p.code.toNat := by
  revert h
  cases p <;> decide

/-- The bases of the ports H to L (rule R51). -/
theorem base_toNat_of_ge (p : PortName) (h : 7 ≤ p.code.toNat) :
    (base p).toNat = 0x100 + 3 * (p.code.toNat - 7) := by
  revert h
  cases p <;> decide

/-- Settles O14: the decode by its two ranges, the bases by their formulas, and `decodeAddr_addr` for the inverse. -/
theorem addressDecodeInvertsTheMap : Obligations.AddressDecodeInvertsTheMap :=
  ⟨decodeAddr_eq_some_iff, base_toNat_of_le, base_toNat_of_ge, ⟨rfl, rfl, rfl⟩, decodeAddr_addr⟩

/-! ## Reads and writes -/

/-- Settles O15: the value by the kind of register, the state by `memRead_state`. -/
theorem memReadValueAndEvent : Obligations.MemReadValueAndEvent := by
  intro r s v t h
  obtain ⟨rfl, rfl⟩ : (memRead r s).1 = v ∧ (memRead r s).2 = t := by simp [h]
  obtain ⟨p, k⟩ := r
  refine ⟨?_, ?_, ?_, ?_, ?_⟩
  · rintro rfl
    exact congrArg Prod.fst (memRead_ddrr p s)
  · rintro rfl
    exact congrArg Prod.fst (memRead_portr p s)
  · rintro rfl hp
    exact congrArg Prod.fst (memRead_pinr_outputState p hp)
  · rintro rfl hp
    exact ⟨_, congrArg Prod.fst (memRead_pinr_padDraw p hp)⟩
  · rcases memRead_state ⟨p, k⟩ s with e | e <;> rw [e] <;> rfl

/-- Settles O16: the banks are those of the write, one equation for each kind of register. -/
theorem memWriteEffectAndEvent : Obligations.MemWriteEffectAndEvent := by
  rintro ⟨p, k⟩ v s
  refine ⟨_, _, memWrite_eq ⟨p, k⟩ v s, ?_, ?_, ?_, fun q hq => memWrite_get_of_ne hq v s⟩
  · rintro rfl
    exact ⟨Bank.get_set_self _ p _, rfl⟩
  · rintro rfl
    exact ⟨Bank.get_set_self _ p _, rfl⟩
  · rintro rfl
    exact ⟨Bank.get_set_self _ p _, rfl⟩

/-- Two writes of the same byte to PINx cancel (rule R59). -/
theorem memWrite_pinr_pinr_port (p : PortName) (v : Byte) (s : State) :
    (memWrite (pinr p) v (memWrite (pinr p) v s)).port = s.port := by
  simp

/-- A write of PINx leaves `port` only when it toggles no bit (rule R59). -/
theorem memWrite_pinr_port_eq_iff (p : PortName) (v : Byte) (s : State) :
    s.port = (memWrite (pinr p) v s).port ↔ v = 0#8 := by
  rw [memWrite_pinr, State.logBus_port, State.setPort_port]
  constructor
  · intro h
    have hget : s.port.get p = s.port.get p ^^^ v := by simpa using congrArg (Bank.get · p) h
    simpa using hget.symm
  · rintro rfl
    simp

/-- Settles O17: PINx writes by the two lemmas above, the rest by the equations of the reads and writes. -/
theorem idempotencyAndAliasing : Obligations.IdempotencyAndAliasing := by
  intro p v w s
  refine ⟨fun r => ⟨memRead_ddr r s, memRead_port r s⟩, memWrite_pinr_pinr_port p v s, ?_, ?_, ?_, ?_, ?_, ?_, ?_,
    fun hp => ⟨?_, ?_⟩⟩
  · rw [memWrite_pinr_pinr_port]
    exact memWrite_pinr_port_eq_iff p v s
  · simp
  · simp
  · simp
  · simp
  · simp
  · simp
  · rw [memRead_pinr_outputState p (by simpa using hp)]
    simp
  · rw [memRead_pinr_outputState p (by simpa using hp)]
    simp

/-! ## What a command leaves alone -/

/-- What a command can do: `exec_latched` and `exec_live` read from its answer. -/
theorem exec_cases {i : Instr} {s t : State} (h : exec i s = .next t) :
    (∃ c, s.fatal = some c ∧ t = answerLatched c s) ∨ (s.fatal = none ∧ LiveAnswer i s t) := by
  cases hf : s.fatal with
  | some c =>
    rw [exec_latched i hf] at h
    exact .inl ⟨c, rfl, (Host.Outcome.next.inj h).symm⟩
  | none =>
    obtain ⟨u, hu, hlive⟩ := exec_live i hf
    obtain rfl : u = t := Host.Outcome.next.inj (hu.symm.trans h)
    exact .inr ⟨rfl, hlive⟩

/-- A command does some work on the registers of its port, then adds one response and settles `pc` and the latch: the
form of `step_eq_work_then_response` that keeps the command (rules R112, R206, R207). -/
theorem exec_eq_work_then_response {i : Instr} {s t : State} (h : exec i s = .next t) :
    ∃ u r n f, Works (touches i) s u ∧ t = { u with responses := u.responses ++ [r], pc := n, fatal := f } := by
  rcases exec_cases h with ⟨c, -, rfl⟩ | ⟨-, ⟨-, rfl⟩ | ⟨-, -, rfl⟩ | ⟨-, -, r, u, rfl, -, hw⟩⟩
  · exact ⟨s, _, _, _, .nil, rfl⟩
  · exact ⟨s, _, _, _, .nil, rfl⟩
  · exact ⟨s, _, _, _, .nil, rfl⟩
  · exact ⟨u, _, _, _, hw, rfl⟩

/-- No command changes the parameters or the program (rules R28, R66). -/
theorem exec_cfg_prog {i : Instr} {s t : State} (h : exec i s = .next t) : t.cfg = s.cfg ∧ t.prog = s.prog := by
  obtain ⟨u, r, n, f, hw, rfl⟩ := exec_eq_work_then_response h
  exact ⟨hw.cfg, hw.prog⟩

/-- Work on no port makes no access (rule R60). -/
theorem Works.banks_of_none {s u : State} (w : Works none s u) :
    u.ddr = s.ddr ∧ u.port = s.port ∧ u.busTrace = s.busTrace := by
  induction w with
  | nil => exact ⟨rfl, rfl, rfl⟩
  | read r h => cases h
  | write r v h => cases h
  | emit e _ ih => exact ih
  | draw n _ ih => exact ih
  | readings rest _ ih => exact ih

/-- A command whose accesses go to no port makes none (rule R60). -/
theorem exec_banks_of_touches_none {i : Instr} (hi : touches i = none) {s t : State} (h : exec i s = .next t) :
    t.ddr = s.ddr ∧ t.port = s.port ∧ t.busTrace = s.busTrace := by
  obtain ⟨u, r, n, f, hw, rfl⟩ := exec_eq_work_then_response h
  rw [hi] at hw
  exact hw.banks_of_none

/-- Only ill-formed commands and the generators can latch a cause (rules R200, R203). -/
theorem exec_fatal_of_wf {i : Instr} {s t : State} (hwf : i.wf = true) (hgenm : i ≠ .genm) (hgena : i ≠ .gena)
    (h : exec i s = .next t) : t.fatal = s.fatal := by
  rcases exec_cases h with
    ⟨c, -, rfl⟩ | ⟨-, ⟨hill, -⟩ | ⟨-, ⟨hg, -⟩ | ⟨hg, -⟩, -⟩ | ⟨-, -, r, u, rfl, -, hw⟩⟩
  · exact answerLatched_fatal c s
  · simp [hwf] at hill
  · exact absurd hg hgenm
  · exact absurd hg hgena
  · exact hw.fatal

/-- What a latched answer and a body both keep, the command keeps (rules R112, R207). -/
theorem execute_keeps {α : Type} (f : State → α) {body : State → State} {s t : State}
    (hlatched : ∀ c, f (answerLatched c s) = f s) (hb : f (body s) = f s) (h : execute body s = .next t) :
    f t = f s := by
  cases hf : s.fatal with
  | some c =>
    rw [execute_latched body hf] at h
    cases h
    exact hlatched c
  | none =>
    rw [execute_live body hf] at h
    cases h
    exact hb

/-- The side of the collaborators: their trace and the readings to come (rule R183). -/
def State.collaborators (s : State) : List CollabEvent × List SensorReading := (s.collabTrace, s.sensorIn)

@[simp] theorem memRead_collaborators (r : Reg) (s : State) : (memRead r s).2.collaborators = s.collaborators := by
  simp [State.collaborators]

@[simp] theorem memWrite_collaborators (r : Reg) (v : Byte) (s : State) :
    (memWrite r v s).collaborators = s.collaborators := by
  simp [State.collaborators]

@[simp] theorem complete_collaborators (r : Response) (s : State) : (complete r s).collaborators = s.collaborators :=
  rfl

theorem readAt_collaborators (addr : Addr) (s : State) : (readAt addr s).collaborators = s.collaborators := by
  cases hd : decodeAddr addr with
  | none => rw [readAt_of_unmapped hd, complete_collaborators]
  | some r => rw [readAt_of_mapped hd, complete_collaborators, memRead_collaborators]

theorem writeAt_collaborators (addr : Addr) (data : Byte) (s : State) :
    (writeAt addr data s).collaborators = s.collaborators := by
  cases hd : decodeAddr addr with
  | none => rw [writeAt_of_unmapped hd, complete_collaborators]
  | some r => rw [writeAt_of_mapped hd, complete_collaborators, memWrite_collaborators]

theorem answerByte_collaborators (v : Option Byte) (s : State) : (answerByte v s).collaborators = s.collaborators := by
  cases v <;> rfl

theorem legalOnly_collaborators {ok : Bool} {body : State → State} {s : State}
    (hb : (body s).collaborators = s.collaborators) : (legalOnly ok body s).collaborators = s.collaborators := by
  cases ok with
  | false => rfl
  | true => exact hb

theorem setMode_collaborators (p : PortName) (idx : Byte) (m : IOMode) (s : State) :
    (setMode p idx m s).collaborators = s.collaborators := by
  rw [setMode_eq]
  rfl

theorem guardedToggle_collaborators (test : Config → Byte → Byte → Byte → Bool) (p : PortName) (idx : Byte)
    (s : State) : (guardedToggle test p idx s).collaborators = s.collaborators := by
  obtain ⟨-, -, -, -, hcollab, hsensor, -⟩ := guardedToggle_frame test p idx s
  rw [State.collaborators, hcollab, hsensor, State.collaborators]

/-- Only the generators have to do with the collaborators (rules R181, R184). -/
theorem exec_collaborators {i : Instr} {s t : State} (hgenm : i ≠ .genm) (hgena : i ≠ .gena)
    (h : exec i s = .next t) : t.collaborators = s.collaborators := by
  have keep {body : State → State} (hb : (body s).collaborators = s.collaborators)
      (hx : execute body s = .next t) : t.collaborators = s.collaborators :=
    execute_keeps State.collaborators (fun _ => rfl) hb hx
  cases i with
  | acq | pin | xor | xsh | pshl | pshr => exact keep (complete_collaborators _ s) h
  | mode | out | inp => exact keep (legalOnly_collaborators (setMode_collaborators _ _ _ s)) h
  | tgl p idx =>
    refine keep (legalOnly_collaborators ?_) h
    exact memWrite_collaborators (pinr p) (mask idx) s
  | high | low => exact keep (guardedToggle_collaborators _ _ _ s) h
  | rd addr => exact keep (readAt_collaborators addr s) h
  | wr addr data => exact keep (writeAt_collaborators addr data s) h
  | rot b n => exact keep (answerByte_collaborators _ s) h
  | genm => exact absurd rfl hgenm
  | gena => exact absurd rfl hgena

/-! ## The frame of the commands that store nothing -/

/-- A read at any address leaves both banks (rule R57). -/
theorem readAt_banks (addr : Addr) (s : State) :
    ((readAt addr s).ddr, (readAt addr s).port) = (s.ddr, s.port) := by
  cases hd : decodeAddr addr with
  | none => rw [readAt_of_unmapped hd]; rfl
  | some r => rw [readAt_of_mapped hd]; exact Prod.ext (memRead_ddr r s) (memRead_port r s)

theorem exec_rd_banks {addr : Addr} {s t : State} (h : exec (.rd addr) s = .next t) :
    t.ddr = s.ddr ∧ t.port = s.port :=
  Prod.mk.inj (execute_keeps (fun s => (s.ddr, s.port)) (fun _ => rfl) (readAt_banks addr s) h)

/-- Settles O50: the banks by `exec_rd_banks` for `RD` and by `exec_banks_of_touches_none` for the others, the other
fields by the laws of every command. -/
theorem nonStoringCommandsFrame : Obligations.NonStoringCommandsFrame := by
  intro i s t hi h
  have hkind : (∃ a, i = .rd a) ∨ touches i = none := by
    rcases hi with ⟨p, rfl⟩ | ⟨p, idx, rfl⟩ | ⟨a, rfl⟩ | ⟨b, n, rfl⟩ | ⟨a, b, rfl⟩ | ⟨a, rfl⟩ | ⟨v, c, rfl⟩ |
      ⟨v, c, rfl⟩ | rfl | rfl <;> simp [touches]
  obtain ⟨hddr, hport⟩ : t.ddr = s.ddr ∧ t.port = s.port := by
    rcases hkind with ⟨a, rfl⟩ | hnone
    · exact exec_rd_banks h
    · obtain ⟨hd, hp, -⟩ := exec_banks_of_touches_none hnone h
      exact ⟨hd, hp⟩
  obtain ⟨hcfg, hprog⟩ := exec_cfg_prog h
  refine ⟨peek_eq_of_banks hddr hport, hddr, hport, hcfg, hprog, fun hrd => ?_,
    fun hgenm hgena => Prod.mk.inj (exec_collaborators hgenm hgena h),
    fun hwf hgenm hgena => exec_fatal_of_wf hwf hgenm hgena h⟩
  obtain ⟨a, rfl⟩ | hnone := hkind
  · exact absurd rfl (hrd a)
  · obtain ⟨-, -, hbus⟩ := exec_banks_of_touches_none hnone h
    exact hbus

/-! ## The frame of `WR` -/

theorem State.stored_of_ddr {r : Reg} (h : r.kind = .ddr) (s : State) : s.stored r = s.ddr.get r.port := by
  simp [State.stored, h]

/-- PINx and PORTx show the same byte (rules R24, R37). -/
theorem State.stored_of_ne_ddr {r : Reg} (h : r.kind ≠ .ddr) (s : State) : s.stored r = s.port.get r.port := by
  obtain ⟨p, k⟩ := r
  cases k with
  | pin => rfl
  | ddr => exact absurd rfl h
  | port => rfl

theorem memWrite_port_of_ddr {r : Reg} (h : r.kind = .ddr) (v : Byte) (s : State) :
    (memWrite r v s).port = s.port := by
  simp [memWrite, storeReg, h]

theorem memWrite_ddr_of_ne_ddr {r : Reg} (h : r.kind ≠ .ddr) (v : Byte) (s : State) :
    (memWrite r v s).ddr = s.ddr := by
  rcases memWrite_state r v s with ⟨-, e⟩ | ⟨hk, -⟩ | ⟨-, e⟩
  · rw [e]; rfl
  · exact absurd hk h
  · rw [e]; rfl

/-- A write leaves the byte behind every register of another port, and of its own port the byte of the other bank: PINx
and PORTx are one byte, DDRx another (rules R37, R58). -/
theorem stored_memWrite {r x : Reg} (h : x.port = r.port → ¬ (x.kind = .ddr ↔ r.kind = .ddr)) (v : Byte) (s : State) :
    (memWrite r v s).stored x = s.stored x := by
  by_cases hp : x.port = r.port
  · by_cases hr : r.kind = .ddr
    · have hx : x.kind ≠ .ddr := by simpa [hr] using h hp
      rw [State.stored_of_ne_ddr hx, State.stored_of_ne_ddr hx, memWrite_port_of_ddr hr]
    · have hx : x.kind = .ddr := by simpa [hr] using h hp
      rw [State.stored_of_ddr hx, State.stored_of_ddr hx, memWrite_ddr_of_ne_ddr hr]
  · obtain ⟨hddr, hport⟩ := memWrite_get_of_ne hp v s
    simp [State.stored, hddr, hport]

/-- A write of a DDRx is seen at its own address only (rule R58). -/
theorem peek_memWrite_of_ddr {r : Reg} (hr : r.kind = .ddr) {a : Addr} (ha : a ≠ r.addr) (v : Byte) (s : State) :
    (memWrite r v s).peek a = s.peek a := by
  refine peek_eq_of_stored fun x hx => stored_memWrite (fun hp hk => ha ?_) v s
  rw [← addr_of_decodeAddr hx, Reg.addr, Reg.addr, hp, hk.mpr hr, hr]

/-- A write of a PINx or a PORTx is seen at the addresses of those two only (rules R37, R59). -/
theorem peek_memWrite_of_ne_ddr {r : Reg} (hr : r.kind ≠ .ddr) {a : Addr} (hpin : a ≠ base r.port)
    (hport : a ≠ base r.port + 2#16) (v : Byte) (s : State) : (memWrite r v s).peek a = s.peek a := by
  refine peek_eq_of_stored fun x hx => stored_memWrite (fun hp hk => ?_) v s
  have ha := addr_of_decodeAddr hx
  obtain ⟨o, k⟩ := x
  obtain rfl : o = r.port := hp
  cases k with
  | pin => exact hpin (ha.symm.trans (addr_pinr _))
  | ddr => exact hr (hk.mp rfl)
  | port => exact hport ha.symm

/-- `WR` shows at an address what its body left there; a latched answer leaves every byte (rules R111, R207). -/
theorem exec_wr_peek {addr : Addr} {data : Byte} {s t : State} (h : exec (.wr addr data) s = .next t) {a : Addr}
    (hb : (writeAt addr data s).peek a = s.peek a) : t.peek a = s.peek a :=
  execute_keeps (State.peek · a) (fun _ => rfl) hb h

/-- Settles O53: the bytes by the frames of `memWrite`, the other fields by the laws of every command. -/
theorem wrFrame : Obligations.WrFrame := by
  intro addr data s t h
  obtain ⟨hcfg, hprog⟩ := exec_cfg_prog h
  obtain ⟨hcollab, hsensor⟩ := Prod.mk.inj (exec_collaborators (by simp) (by simp) h)
  refine ⟨fun hd a => exec_wr_peek h ?_, fun r hd => ⟨fun hk a ha => exec_wr_peek h ?_,
      fun hk a hpin hport => exec_wr_peek h ?_⟩,
    hcfg, hprog, exec_fatal_of_wf rfl (by simp) (by simp) h, hcollab, hsensor,
    exec_draws (by simp) (by simp) (by simp) h⟩
  · rw [writeAt_of_unmapped hd]
    rfl
  · rw [writeAt_of_mapped hd]
    exact peek_memWrite_of_ddr hk (by rwa [addr_of_decodeAddr hd]) data s
  · rw [writeAt_of_mapped hd]
    exact peek_memWrite_of_ne_ddr hk hpin hport data s

end Sys2Proof.Machine

/-! PROOFS. The encoding: decoding inverts encoding (O1, O4), encoding inverts decoding (O2), which words are reserved and
what they do (O3), and the terms no word decodes to (O35). -/

namespace Sys2Proof

/-! ## The parts of the decoder -/

@[simp] theorem ensure_true (why : Reserved) (d : Decoded) : ensure true why d = d := rfl

@[simp] theorem withPort_code (p : PortName) (k : PortName → Decoded) : withPort p.code k = k p := by
  simp [withPort]

/-- `ensure` answers reserved when its constraint fails, or where the answer it guards is reserved (rule R88). -/
theorem ensure_reserved {ok : Bool} {why : Reserved} {d : Decoded} :
    (∃ y, ensure ok why d = .reserved y) ↔ ok = false ∨ ∃ y, d = .reserved y := by
  cases ok <;> simp [ensure]

@[simp] theorem PortName.code_inj {p q : PortName} : p.code = q.code ↔ p = q :=
  ⟨fun h => by simpa using congrArg PortName.ofCode h, congrArg PortName.code⟩

/-- The codes of ports are 0 to 10 (rule R82). -/
theorem PortName.exists_code_iff (v : Byte) : (∃ p : PortName, v = p.code) ↔ v.toNat ≤ 10 := by
  have hsome : (PortName.ofCode v).isSome = true ↔ v.toNat ≤ 10 := by simp [PortName.ofCode_isSome]
  rw [← hsome, Option.isSome_iff_exists]
  exact exists_congr fun p => ⟨by rintro rfl; simp, fun h => (PortName.code_of_ofCode h).symm⟩

/-- `withPort` answers reserved for a code without a port, or where the port's answer is reserved (rule R88 (c)). -/
theorem withPort_reserved {fa : Byte} {k : PortName → Decoded} :
    (∃ y, withPort fa k = .reserved y) ↔ 11 ≤ fa.toNat ∨ ∃ p, fa = p.code ∧ ∃ y, k p = .reserved y := by
  by_cases hfa : ∃ p : PortName, fa = p.code
  · have hlow := (PortName.exists_code_iff fa).mp hfa
    obtain ⟨p, rfl⟩ := hfa
    simp [show ¬ 11 ≤ p.code.toNat by omega]
  · have hhigh := mt (PortName.exists_code_iff fa).mpr hfa
    have hnone : PortName.ofCode fa = none :=
      Option.eq_none_iff_forall_ne_some.mpr fun p hp => hfa ⟨p, (PortName.code_of_ofCode hp).symm⟩
    simp [withPort, hnone, show 11 ≤ fa.toNat by omega]

/-! ## Words of commands -/

theorem decode_encode_mode (p : PortName) {idx : Byte} (h : idx.toNat < 8) (m : IOMode) :
    decode (encode (.mode p idx m)) = .command (.mode p idx m) := by
  simp [encode, decodeFields, h]

/-- The decoder finds the row of the encoder and reads back the operands that the row packs; `OUT` and `IN` have the
words of `MODE` (rules R81, R92, R94). -/
theorem decode_encode {i : Instr} (hwf : i.wf = true) : decode (encode i) = .command i.canonical := by
  cases i with
  | mode p idx m => exact decode_encode_mode p (of_decide_eq_true hwf) m
  | out p idx => exact decode_encode_mode p (of_decide_eq_true hwf) .output
  | inp p idx => exact decode_encode_mode p (of_decide_eq_true hwf) .input
  | tgl p idx =>
    have hidx : idx.toNat < 8 := of_decide_eq_true hwf
    simp [encode, decodeFields, Instr.canonical, hidx]
  | rot b n =>
    obtain ⟨hlow, hhigh⟩ : 1 ≤ n.toNat ∧ n.toNat ≤ 7 := by simpa [Instr.wf] using hwf
    simp [encode, decodeFields, Instr.canonical, hlow, hhigh]
  | _ => simp [encode, decodeFields, Instr.canonical]

/-- Only `OUT` and `IN` have another canonical spelling (rule R92). -/
theorem Instr.canonical_eq_self_iff (i : Instr) : i.canonical = i ↔ ∀ p idx, i ≠ .out p idx ∧ i ≠ .inp p idx := by
  cases i <;> simp [Instr.canonical]

/-- Settles O1: the round trip of every row, and which commands have a canonical spelling of their own. -/
theorem decodeOfEncodeGivesTheCommand : Obligations.DecodeOfEncodeGivesTheCommand :=
  ⟨fun _ hwf => decode_encode hwf, fun i => i.canonical_eq_self_iff.mpr, fun _ _ => ⟨rfl, rfl⟩⟩

/-- The command a row answers with packs to the fields it was read from, meets the constraints of the row, and is in the
decoder's spelling (rules R81, R94). -/
theorem encode_of_decodeFields {op fa fb fc : Byte} {i : Instr} (h : decodeFields op fa fb fc = .command i) :
    encode i = packWord op fa fb fc ∧ i.wf = true ∧ i.canonical = i := by
  unfold decodeFields at h
  split at h
  case h_16 => cases h
  all_goals simp only [withPort_command, ensure_command, Bool.and_eq_true, beq_iff_eq, Decoded.command.injEq] at h
  · -- ACQ
    obtain ⟨p, rfl, ⟨rfl, rfl⟩, rfl⟩ := h
    exact ⟨rfl, rfl, rfl⟩
  · -- PIN
    obtain ⟨p, rfl, rfl, rfl⟩ := h
    exact ⟨rfl, rfl, rfl⟩
  · -- MODE
    obtain ⟨p, rfl, hidx, h⟩ := h
    split at h
    · next m hm =>
      cases h
      exact ⟨by rw [encode, IOMode.code_of_ofCode hm], hidx, rfl⟩
    · cases h
  · -- TGL
    obtain ⟨p, rfl, hidx, rfl, rfl⟩ := h
    exact ⟨rfl, hidx, rfl⟩
  · -- HIGH
    obtain ⟨p, rfl, rfl, rfl⟩ := h
    exact ⟨rfl, rfl, rfl⟩
  · -- LOW
    obtain ⟨p, rfl, rfl, rfl⟩ := h
    exact ⟨rfl, rfl, rfl⟩
  · -- RD
    obtain ⟨rfl, rfl⟩ := h
    exact ⟨by simp [encode], rfl, rfl⟩
  · -- WR
    subst h
    exact ⟨by simp [encode], rfl, rfl⟩
  · -- ROT
    obtain ⟨hn, rfl, rfl⟩ := h
    exact ⟨rfl, by simpa [Instr.wf] using hn, rfl⟩
  · -- XOR
    obtain ⟨rfl, rfl⟩ := h
    exact ⟨rfl, rfl, rfl⟩
  · -- XSH
    obtain ⟨⟨rfl, rfl⟩, rfl⟩ := h
    exact ⟨rfl, rfl, rfl⟩
  · -- PSHL
    obtain ⟨rfl, rfl⟩ := h
    exact ⟨rfl, rfl, rfl⟩
  · -- PSHR
    obtain ⟨rfl, rfl⟩ := h
    exact ⟨rfl, rfl, rfl⟩
  · -- GENM
    obtain ⟨⟨⟨rfl, rfl⟩, rfl⟩, rfl⟩ := h
    exact ⟨rfl, rfl, rfl⟩
  · -- GENA
    obtain ⟨⟨⟨rfl, rfl⟩, rfl⟩, rfl⟩ := h
    exact ⟨rfl, rfl, rfl⟩

/-- Settles O2: the rows of the decoder, with the word put together from its fields. -/
theorem encodeOfDecodeGivesTheWord : Obligations.EncodeOfDecodeGivesTheWord := by
  intro w i h
  obtain ⟨hword, hwf, hcanon⟩ := encode_of_decodeFields h
  exact ⟨hword.trans (packWord_fields w), hwf, i.canonical_eq_self_iff.mp hcanon⟩

/-- Settles O4: the words evaluate. -/
theorem exampleWordsDecode : Obligations.ExampleWordsDecode := by
  unfold Obligations.ExampleWordsDecode
  decide

/-! ## Reserved words -/

/-- The clauses (a) to (e) of rule R88 on the four fields of a word. -/
def BreaksTheOpcodeMap (op fa fb fc : Nat) : Prop :=
  op ∉ [0x01, 0x02, 0x03, 0x04, 0x05, 0x06, 0x10, 0x11, 0x20, 0x21, 0x22, 0x23, 0x24, 0x30, 0x31] ∨
  (op ∈ [0x30, 0x31] ∧ fa ≠ 0) ∨
  (op ∈ [0x01, 0x22, 0x30, 0x31] ∧ fb ≠ 0) ∨
  (op ∈ [0x01, 0x02, 0x04, 0x05, 0x06, 0x10, 0x20, 0x21, 0x22, 0x23, 0x24, 0x30, 0x31] ∧ fc ≠ 0) ∨
  (op = 0x03 ∧ fc / 2 ≠ 0) ∨
  (op ∈ [0x01, 0x02, 0x03, 0x04, 0x05, 0x06] ∧ 11 ≤ fa) ∨
  (op ∈ [0x03, 0x04] ∧ 8 ≤ fb) ∨
  (op = 0x20 ∧ (fb = 0 ∨ 8 ≤ fb))

theorem fieldOp_toNat (w : Word) : (fieldOp w).toNat = w.toNat / 0x1000000 := by
  simp [fieldOp, Nat.shiftRight_eq_div_pow]
  omega

theorem fieldA_toNat (w : Word) : (fieldA w).toNat = w.toNat / 0x10000 % 256 := by
  simp [fieldA, Nat.shiftRight_eq_div_pow]

theorem fieldB_toNat (w : Word) : (fieldB w).toNat = w.toNat / 0x100 % 256 := by
  simp [fieldB, Nat.shiftRight_eq_div_pow]

theorem fieldC_toNat (w : Word) : (fieldC w).toNat = w.toNat % 256 := by
  simp [fieldC]

/-- The row of `MODE` breaks clause (b), (c) or (d) of rule R88. -/
theorem decodeFields_mode_reserved (fa fb fc : Byte) :
    (∃ why, decodeFields 0x03#8 fa fb fc = .reserved why) ↔ 11 ≤ fa.toNat ∨ 8 ≤ fb.toNat ∨ 2 ≤ fc.toNat := by
  have hmode := IOMode.ofCode_isSome fc
  cases hfc : IOMode.ofCode fc with
  | none =>
    have hhigh : 1 < fc.toNat := by simpa [hfc] using hmode
    simp [decodeFields, withPort_reserved, ensure_reserved, PortName.exists_code_iff, hfc]
    omega
  | some m =>
    have hlow : fc.toNat ≤ 1 := by simpa [hfc] using hmode
    simp [decodeFields, withPort_reserved, ensure_reserved, PortName.exists_code_iff, hfc]
    omega

/-- A row answers reserved exactly when one of its own constraints fails, and no row is met for an unassigned `op`
(rule R88). -/
theorem decodeFields_reserved_iff (op fa fb fc : Byte) :
    (∃ why, decodeFields op fa fb fc = .reserved why) ↔
      BreaksTheOpcodeMap op.toNat fa.toNat fb.toNat fc.toNat := by
  unfold decodeFields BreaksTheOpcodeMap
  split
  case h_3 => exact (decodeFields_mode_reserved fa fb fc).trans (by simp; omega)
  case h_16 => exact iff_of_true ⟨_, rfl⟩ (.inl (by simp_all [BitVec.toNat_eq]))
  all_goals simp [withPort_reserved, ensure_reserved, PortName.exists_code_iff]
  all_goals bv_omega

/-- Settles O3: the clauses speak of the four fields of the word, and a presented reserved word takes the fault entry. -/
theorem reservedWordsAreTheFiveClauses : Obligations.ReservedWordsAreTheFiveClauses := by
  rintro w _ _ _ _ rfl rfl rfl rfl
  refine ⟨?_, fun why s hd hf => Machine.present_reserved hf hd⟩
  rw [← fieldOp_toNat, ← fieldA_toNat, ← fieldB_toNat, ← fieldC_toNat]
  exact decodeFields_reserved_iff (fieldOp w) (fieldA w) (fieldB w) (fieldC w)

/-- Settles O35: of the answers of a live command (`LiveAnswer`), an ill-formed one can only give the fault entry. -/
theorem illegalOperandsTakeTheFault : Obligations.IllegalOperandsTakeTheFault := by
  intro i s hf hwf
  obtain ⟨t, hexec, ⟨-, rfl⟩ | ⟨hok, -⟩ | ⟨hok, -⟩⟩ := Machine.exec_live i hf
  · exact hexec
  · simp [hwf] at hok
  · simp [hwf] at hok

end Sys2Proof

/-! PROOFS. The rule common to all commands (O7), and the bus access commands `RD` and `WR` (O19, O20). -/

namespace Sys2Proof.Machine

/-! ## The rule common to all commands -/

/-- While a cause is latched every presented word is answered with it (rule R207). -/
theorem present_latched (w : Word) {s : State} {c : Cause} (h : s.fatal = some c) :
    present w s = .next (answerLatched c s) := by
  simp [present, h]

/-- The decoder answers no ill-formed command (rules R81, R94). -/
theorem wf_of_decode {w : Word} {i : Instr} (h : decode w = .command i) : i.wf = true := by
  obtain ⟨-, hwf, -⟩ := encode_of_decodeFields h
  exact hwf

/-- There are two generator modes, so the wrong one is the other one (rules R28, R180). -/
theorem wrongMode_iff (i : Instr) (c : Config) :
    wrongMode i c ↔ (i = .genm ∧ c.genMode = .analog) ∨ (i = .gena ∧ c.genMode = .motion) := by
  unfold wrongMode
  cases c.genMode <;> simp

/-- Settles O7: a live decoded command is well-formed, so of its answers (`LiveAnswer`) only the mode fault and the
completed command are left. -/
theorem everyCommandAnswersOnceAndAdvances : Obligations.EveryCommandAnswersOnceAndAdvances := by
  refine fun w s => ⟨fun c hf => present_latched w hf, fun hf why hd => present_reserved hf hd, fun hf i hd => ?_⟩
  rw [present_command hd, ← wrongMode_iff]
  obtain ⟨t, hexec, ⟨hill, -⟩ | ⟨-, hwrong, rfl⟩ | ⟨-, hright, r, u, rfl, hr, hw⟩⟩ := exec_live i hf
  · simp [wf_of_decode hd] at hill
  · exact ⟨_, _, hexec, rfl, fun _ => rfl, absurd hwrong⟩
  · refine ⟨_, r, hexec, ?_, fun hwrong => absurd hwrong hright, fun _ => ⟨hr, ?_, ?_⟩⟩
    · rw [complete_responses, hw.responses]
    · rw [complete_pc, hw.pc]
    · rw [complete_fatal, hw.fatal, hf]

/-! ## Bus access commands -/

/-- Bytes put together under a mask agree with the first of them on the mask. -/
theorem and_or_and_not_and_self (q x d : Byte) : ((q &&& d) ||| (x &&& ~~~d)) &&& d = q &&& d := by
  ext i hi
  cases hd : d[i] <;> simp [hd]

/-- Settles O19: the decoding by the round trip of the encoding, the read by the effect of `MemRead` (O15). -/
theorem rdReadsOneRegister : Obligations.RdReadsOneRegister := by
  refine fun addr s hf => ⟨decode_encode (i := .rd addr) rfl, fun hd => ?_, fun r hd => ?_⟩
  · rw [exec_rd hf, readAt_of_unmapped hd]
    rfl
  · rcases hread : memRead r s with ⟨v, t⟩
    obtain ⟨hddr, hport, houtput, hpad, hstate⟩ := memReadValueAndEvent r s v t hread
    refine ⟨v, t.draws, ?_, hddr, hport, houtput, fun hk hp => ?_⟩
    · rw [← Reg.addr, addr_of_decodeAddr hd] at hstate
      rw [exec_rd hf, readAt_of_mapped hd, hread, hstate]
      rfl
    · obtain ⟨drawn, rfl⟩ := hpad hk hp
      exact and_or_and_not_and_self _ _ _

/-- Settles O20: the decoding by the round trip of the encoding, the write by the effect of `MemWrite` (O16). -/
theorem wrWritesOneRegister : Obligations.WrWritesOneRegister := by
  refine fun addr data s hf => ⟨decode_encode (i := .wr addr data) rfl, fun hd => ?_, fun r hd => ?_⟩
  · rw [exec_wr hf, writeAt_of_unmapped hd]
    rfl
  · obtain ⟨D, P, hstate, hpin, hddr, hport, hothers⟩ := memWriteEffectAndEvent r data s
    refine ⟨D, P, ?_, fun hk => ?_, fun hk => ?_, fun hk => ?_, hothers⟩
    · rw [← Reg.addr, addr_of_decodeAddr hd] at hstate
      rw [exec_wr hf, writeAt_of_mapped hd, hstate]
      rfl
    · obtain ⟨hP, rfl⟩ := hpin hk
      exact ⟨hP, rfl⟩
    · obtain ⟨hD, rfl⟩ := hddr hk
      exact ⟨hD, rfl⟩
    · obtain ⟨hP, rfl⟩ := hport hk
      exact ⟨hP, rfl⟩

end Sys2Proof.Machine

/-! PROOFS. The pin commands: the guards (O27), handles (O21, O22), directions (O23 to O25), the toggle (O26), `HIGH`
and `LOW` (O28 to O33), and what these commands leave alone (O51, O52). -/

namespace Sys2Proof

/-! ## Words of the pin commands -/

/-- A code of 11 or more names no port (rule R82). -/
theorem PortName.ofCode_eq_none {v : Byte} (h : 11 ≤ v.toNat) : PortName.ofCode v = none := by
  have hsome : (PortName.ofCode v).isSome = false := by
    rw [PortName.ofCode_isSome, decide_eq_false (by omega)]
  simpa using hsome

/-- `MODE` and `TGL` with an index of 8 or more are reserved (rule R88 (d)). -/
theorem decode_reserved_of_index {op fb : Byte} (hop : op = 0x03#8 ∨ op = 0x04#8) (h : 8 ≤ fb.toNat)
    (fa fc : Byte) : ∃ why, decode (packWord op fa fb fc) = .reserved why := by
  rw [decode_packWord, decodeFields_reserved_iff]
  rcases hop with rfl | rfl <;> simp [BreaksTheOpcodeMap, h]

end Sys2Proof

namespace Sys2Proof.Machine

/-! ## Bytes under the mask of a pin -/

/-- Exclusive-or with the mask complements the pin's bit (rules R58, R87). -/
theorem xor_mask_getLsbD {idx : Byte} (h : idx.toNat < 8) (v : Byte) (j : Nat) :
    (v ^^^ mask idx).getLsbD j = if j = idx.toNat then !v.getLsbD j else v.getLsbD j := by
  rw [BitVec.getLsbD_xor, mask_getLsbD h]
  split <;> simp [*]

theorem xor_mask_ne_self {idx : Byte} (h : idx.toNat < 8) (v : Byte) : v ^^^ mask idx ≠ v := by
  simp [mask_ne_zero h]

/-- A byte meets the mask exactly when it has the pin's bit. -/
theorem and_mask_eq_zero_iff {idx : Byte} (h : idx.toNat < 8) (v : Byte) :
    v &&& mask idx = 0#8 ↔ v.getLsbD idx.toNat = false := by
  constructor
  · intro hz
    simpa [mask_getLsbD h] using congrArg (BitVec.getLsbD · idx.toNat) hz
  · intro hbit
    refine BitVec.eq_of_getLsbD_eq fun j _ => ?_
    rw [BitVec.getLsbD_and, mask_getLsbD h, BitVec.getLsbD_zero]
    by_cases hj : j = idx.toNat
    · rw [hj, hbit, Bool.false_and]
    · simp [hj]

/-- A byte whose bits but the pin's are clear is 0 or the mask. -/
theorem eq_zero_or_eq_mask {idx v : Byte} (h : idx.toNat < 8)
    (hv : ∀ j, j < 8 → j ≠ idx.toNat → v.getLsbD j = false) : v = 0#8 ∨ v = mask idx := by
  cases hbit : v.getLsbD idx.toNat with
  | false =>
    refine .inl (BitVec.eq_of_getLsbD_eq fun j hj => ?_)
    by_cases hji : j = idx.toNat
    · simp [hji, hbit]
    · simp [hv j hj hji]
  | true =>
    refine .inr (BitVec.eq_of_getLsbD_eq fun j hj => ?_)
    rw [mask_getLsbD h]
    by_cases hji : j = idx.toNat
    · simp [hji, hbit]
    · simp [hji, hv j hj hji]

/-! ## The guards -/

theorem dirOut_whole_iff (dv m : Byte) : dirOut .whole dv m = true ↔ dv = m := by
  simp [dirOut]

/-- Under `bit` the direction guard is the pin's own bit (rule R138). -/
theorem dirOut_bit {idx : Byte} (h : idx.toNat < 8) (dv : Byte) :
    dirOut .bit dv (mask idx) = dv.getLsbD idx.toNat := by
  rw [Bool.eq_iff_iff, ← not_iff_not, Bool.not_eq_true, Bool.not_eq_true, ← and_mask_eq_zero_iff h]
  simp [dirOut]

theorem isLow_whole_iff (pv m : Byte) : isLow .whole pv m = true ↔ pv = 0#8 := by
  simp [isLow]

/-- Under `bit` the level guard is the pin's own bit (rule R138). -/
theorem isLow_bit {idx : Byte} (h : idx.toNat < 8) (pv : Byte) :
    isLow .bit pv (mask idx) = !pv.getLsbD idx.toNat := by
  rw [Bool.eq_iff_iff, Bool.not_eq_true', ← and_mask_eq_zero_iff h]
  simp [isLow]

theorem isHigh_iff (g : Guard) (pv m : Byte) : isHigh g pv m = true ↔ isLow g pv m = false := by
  simp [isHigh]

theorem highToggles_iff (c : Config) (dv pv m : Byte) :
    highToggles c dv pv m = true ↔ dirOut c.guardDdr dv m = true ∧ isLow c.guardPort pv m = true := by
  simp [highToggles]

theorem lowToggles_iff (c : Config) (dv pv m : Byte) :
    lowToggles c dv pv m = true ↔ dirOut c.guardDdr dv m = true ∧ isHigh c.guardPort pv m = true := by
  simp [lowToggles]

/-- Settles O27: `whole` compares the whole byte, `bit` looks at the pin's own bit. -/
theorem guardsOfHighAndLow : Obligations.GuardsOfHighAndLow := by
  intro dv pv idx h
  refine ⟨dirOut_whole_iff dv _, ?_, ?_, isLow_whole_iff pv _, ?_, ?_, fun g => isHigh_iff g pv _⟩
  · exact bne_iff_ne
  · rw [dirOut_bit h]
  · exact beq_iff_eq
  · rw [isLow_bit h, Bool.not_eq_true']

/-- A toggle of a low pin ends the level guard, whole or bit (rule R139). -/
theorem isLow_xor_mask_of_isLow {idx : Byte} (h : idx.toNat < 8) {g : Guard} {pv : Byte}
    (hlow : isLow g pv (mask idx) = true) : isLow g (pv ^^^ mask idx) (mask idx) = false := by
  cases g with
  | whole =>
    rw [(isLow_whole_iff _ _).mp hlow]
    simp [isLow, mask_ne_zero h]
  | bit =>
    rw [isLow_bit h] at hlow ⊢
    simpa [xor_mask_getLsbD h] using hlow

/-! The guards on the two bytes of a port with one pin in use do not depend on the setting (rule R141). -/

@[simp] theorem dirOut_zero {idx : Byte} (h : idx.toNat < 8) (g : Guard) : dirOut g 0#8 (mask idx) = false := by
  cases g with
  | whole => simpa [dirOut] using (mask_ne_zero h).symm
  | bit => rw [dirOut_bit h, BitVec.getLsbD_zero]

@[simp] theorem dirOut_mask {idx : Byte} (h : idx.toNat < 8) (g : Guard) :
    dirOut g (mask idx) (mask idx) = true := by
  cases g with
  | whole => exact (dirOut_whole_iff _ _).mpr rfl
  | bit => rw [dirOut_bit h, mask_getLsbD h, decide_eq_true rfl]

@[simp] theorem isLow_zero (g : Guard) (m : Byte) : isLow g 0#8 m = true := by
  cases g <;> simp [isLow]

@[simp] theorem isLow_mask {idx : Byte} (h : idx.toNat < 8) (g : Guard) : isLow g (mask idx) (mask idx) = false := by
  simpa using isLow_xor_mask_of_isLow h (isLow_zero g (mask idx))

theorem dirOut_eq_of_single_pin {idx dv : Byte} (h : idx.toNat < 8) (hdv : dv = 0#8 ∨ dv = mask idx) (g g' : Guard) :
    dirOut g dv (mask idx) = dirOut g' dv (mask idx) := by
  rcases hdv with rfl | rfl
  · rw [dirOut_zero h, dirOut_zero h]
  · rw [dirOut_mask h, dirOut_mask h]

theorem isLow_eq_of_single_pin {idx pv : Byte} (h : idx.toNat < 8) (hpv : pv = 0#8 ∨ pv = mask idx) (g g' : Guard) :
    isLow g pv (mask idx) = isLow g' pv (mask idx) := by
  rcases hpv with rfl | rfl
  · rw [isLow_zero, isLow_zero]
  · rw [isLow_mask h, isLow_mask h]

/-! ## Handles -/

theorem pinAnswer_of_lt (p : PortName) {idx : Byte} (h : idx.toNat < 8) :
    pinAnswer p idx = .pinHandle p ⟨idx.toNat, h⟩ := dif_pos h

theorem pinAnswer_of_ge (p : PortName) {idx : Byte} (h : 8 ≤ idx.toNat) : pinAnswer p idx = .absent :=
  dif_neg (Nat.not_lt.mpr h)

/-- Settles O21: the round trip of the encoding, and a completed command without any work. -/
theorem acqAnswersTheBase : Obligations.AcqAnswersTheBase := by
  refine ⟨fun p s hs => ⟨decode_encode (i := .acq p) rfl, exec_acq hs⟩, fun code h => ?_⟩
  rw [decode_packWord]
  simp [decodeFields, withPort, PortName.ofCode_eq_none h]

/-- Settles O22: as O21, with the answer by the index. -/
theorem pinAnswersAHandleBelowEight : Obligations.PinAnswersAHandleBelowEight := by
  refine fun p idx s hs => ⟨decode_encode (i := .pin p idx) rfl, fun h => ?_, fun h => ?_⟩
  · rw [exec_pin hs, pinAnswer_of_lt p h]
    rfl
  · rw [exec_pin hs, pinAnswer_of_ge p h]
    rfl

/-! ## Directions -/

theorem modeByte_output (v m : Byte) : modeByte v m .output = v ||| m := by
  ext j hj
  cases hm : m[j] <;> simp [modeByte, hm]

theorem modeByte_input (v m : Byte) : modeByte v m .input = v &&& ~~~m := by
  simp [modeByte]

/-- `MODE` sets the pin's bit to the mode and keeps the others (rule R132). -/
theorem modeByte_getLsbD {idx : Byte} (h : idx.toNat < 8) (v : Byte) (m : IOMode) {j : Nat} (hj : j < 8) :
    (modeByte v (mask idx) m).getLsbD j = if j = idx.toNat then decide (m = .output) else v.getLsbD j := by
  cases m with
  | output =>
    rw [modeByte_output, BitVec.getLsbD_or, mask_getLsbD h]
    split <;> simp [*]
  | input =>
    rw [modeByte_input, BitVec.getLsbD_and, BitVec.getLsbD_not, mask_getLsbD h]
    split <;> simp [*]

/-- The effect of a direction command with its byte given (rule R132). -/
theorem setMode_effect {p : PortName} {idx : Byte} {m : IOMode} {s : State} {v2 : Byte}
    (hv2 : modeByte (s.ddr.get p) (mask idx) m = v2) : ∃ D : Bank,
      setMode p idx m s = { s with
        ddr := D
        busTrace := s.busTrace ++ [.rd (base p + 1#16) (s.ddr.get p), .wr (base p + 1#16) v2]
        responses := s.responses ++ [.done]
        pc := s.pc + 1 } ∧
      D.get p = v2 ∧ ∀ q, q ≠ p → D.get q = s.ddr.get q := by
  subst hv2
  exact ⟨_, setMode_eq p idx m s, Bank.get_set_self _ _ _, fun q hq => Bank.get_set_ne _ _ hq⟩

/-- Settles O23: the effect of `setMode` with the byte of `modeByte`, read bit by bit. -/
theorem modeWritesOneDirectionBit : Obligations.ModeWritesOneDirectionBit := by
  refine fun p idx m s => ⟨fun h => decode_encode_mode p h m,
    fun h => decode_reserved_of_index (.inl rfl) h p.code m.code, fun hs h => ?_⟩
  obtain ⟨D, heq, hown, hother⟩ := setMode_effect (p := p) (idx := idx) (m := m) (s := s) rfl
  refine ⟨D, _, _, (exec_mode hs h).trans (congrArg _ heq), rfl, ?_, fun j hj => modeByte_getLsbD h _ m hj, hown,
    hother⟩
  cases m <;> rfl

/-- Settles O24: `OUT` is the same body as `MODE Output`, whose byte is `modeByte_output`. -/
theorem outIsModeOutput : Obligations.OutIsModeOutput := by
  refine fun p idx s => ⟨rfl, rfl, fun hs h => ?_⟩
  obtain ⟨D, heq, hown, hother⟩ := setMode_effect (modeByte_output (s.ddr.get p) (mask idx))
  exact ⟨D, _, (exec_out hs h).trans (congrArg _ heq), rfl, hown, hother⟩

/-- Settles O25: `IN` is the same body as `MODE Input`, whose byte is `modeByte_input`. -/
theorem inIsModeInput : Obligations.InIsModeInput := by
  refine fun p idx s => ⟨rfl, rfl, fun hs h => ?_⟩
  obtain ⟨D, heq, hown, hother⟩ := setMode_effect (modeByte_input (s.ddr.get p) (mask idx))
  exact ⟨D, _, (exec_inp hs h).trans (congrArg _ heq), rfl, hown, hother⟩

/-! ## The toggle -/

@[simp] theorem complete_port (r : Response) (s : State) : (complete r s).port = s.port := rfl

/-- Two toggles of a pin cancel (rules R59, R135). -/
theorem exec_tgl_twice_port {p : PortName} {idx : Byte} {s t u : State} (hs : s.fatal = none) (h : idx.toNat < 8)
    (ht : exec (.tgl p idx) s = .next t) (hu : exec (.tgl p idx) t = .next u) : u.port = s.port := by
  rw [exec_tgl hs h] at ht
  cases ht
  rw [exec_tgl (by simpa [toggle_eq] using hs) h] at hu
  cases hu
  exact memWrite_pinr_pinr_port p (mask idx) s

/-- Settles O26: the toggle as a whole next state, read bit by bit. -/
theorem tglFlipsOneOutputBit : Obligations.TglFlipsOneOutputBit := by
  refine fun p idx s => ⟨fun h => decode_encode (i := .tgl p idx) (decide_eq_true h),
    fun h => decode_reserved_of_index (.inr rfl) h p.code 0#8, fun hs h => ?_⟩
  refine ⟨s.port.set p (s.port.get p ^^^ mask idx), ?_, fun j _ => ?_, fun q hq => Bank.get_set_ne _ _ hq,
    fun t u => exec_tgl_twice_port hs h⟩
  · rw [exec_tgl hs h, toggle_eq]
    rfl
  · rw [Bank.get_set_self, xor_mask_getLsbD h]

/-! ## The shape of `HIGH` and `LOW` -/

section GuardedToggle

variable {test : Config → Byte → Byte → Byte → Bool} {p : PortName} {idx : Byte} {s : State}

@[simp] theorem guardedToggle_cfg : (guardedToggle test p idx s).cfg = s.cfg := by
  obtain ⟨-, hcfg, -⟩ := guardedToggle_frame test p idx s
  exact hcfg

@[simp] theorem guardedToggle_ddr : (guardedToggle test p idx s).ddr = s.ddr := by
  obtain ⟨hddr, -⟩ := guardedToggle_frame test p idx s
  exact hddr

@[simp] theorem guardedToggle_fatal : (guardedToggle test p idx s).fatal = s.fatal := by
  obtain ⟨-, -, -, hfatal, -⟩ := guardedToggle_frame test p idx s
  exact hfatal

/-- The effect of a toggle that is made (rules R136, R137). -/
theorem guardedToggle_effect (h : idx.toNat < 8)
    (ht : test s.cfg (s.ddr.get p) (s.port.get p) (mask idx) = true) : ∃ P : Bank,
      guardedToggle test p idx s = { s with
        port := P
        busTrace := s.busTrace ++
          [.rd (base p + 1#16) (s.ddr.get p), .rd (base p + 2#16) (s.port.get p), .wr (base p) (mask idx)]
        responses := s.responses ++ [.done]
        pc := s.pc + 1 } ∧
      P.get p = s.port.get p ^^^ mask idx ∧ ∀ q, q ≠ p → P.get q = s.port.get q :=
  ⟨_, guardedToggle_of_test h ht, Bank.get_set_self _ _ _, fun _ hq => Bank.get_set_ne _ _ hq⟩

theorem guardedToggle_port_of_ge (h : 8 ≤ idx.toNat) : (guardedToggle test p idx s).port = s.port := by
  rw [guardedToggle_of_ge _ _ _ h]

theorem guardedToggle_port (h : idx.toNat < 8) :
    (guardedToggle test p idx s).port =
      if test s.cfg (s.ddr.get p) (s.port.get p) (mask idx) then s.port.set p (s.port.get p ^^^ mask idx)
      else s.port := by
  split
  · next ht => rw [guardedToggle_of_test h ht]
  · next ht => rw [guardedToggle_of_not h (Bool.eq_false_iff.mpr ht)]

theorem guardedToggle_port_get (h : idx.toNat < 8) :
    (guardedToggle test p idx s).port.get p =
      if test s.cfg (s.ddr.get p) (s.port.get p) (mask idx) then s.port.get p ^^^ mask idx else s.port.get p := by
  rw [guardedToggle_port h]
  split
  · exact Bank.get_set_self _ _ _
  · rfl

/-- The output register changes exactly when the toggle is made (rule R142). -/
theorem guardedToggle_port_ne_iff (h : idx.toNat < 8) :
    (guardedToggle test p idx s).port ≠ s.port ↔ test s.cfg (s.ddr.get p) (s.port.get p) (mask idx) = true := by
  constructor
  · rw [guardedToggle_port h]
    intro hne
    by_contra ht
    exact hne (if_neg ht)
  · intro ht heq
    have hget := guardedToggle_port_get (test := test) (p := p) (s := s) h
    rw [heq, if_pos ht] at hget
    exact xor_mask_ne_self h _ hget.symm

/-- The toggle write is recorded exactly when the toggle is made (rule R142). -/
theorem wr_mem_guardedToggle_iff (h : idx.toNat < 8) :
    BusEvent.wr (base p) (mask idx) ∈ (guardedToggle test p idx s).busTrace.drop s.busTrace.length ↔
      test s.cfg (s.ddr.get p) (s.port.get p) (mask idx) = true := by
  cases ht : test s.cfg (s.ddr.get p) (s.port.get p) (mask idx) with
  | false => simp [guardedToggle_of_not h ht]
  | true => simp [guardedToggle_of_test h ht]

/-- When a toggle ends its own guard, a second command of the same kind changes no register (rule R139). -/
theorem guardedToggle_twice_port
    (hends : idx.toNat < 8 → test s.cfg (s.ddr.get p) (s.port.get p) (mask idx) = true →
      test s.cfg (s.ddr.get p) (s.port.get p ^^^ mask idx) (mask idx) = false) :
    (guardedToggle test p idx (guardedToggle test p idx s)).port = (guardedToggle test p idx s).port := by
  rcases Nat.lt_or_ge idx.toNat 8 with h | h
  · rw [guardedToggle_port h, if_neg]
    rw [guardedToggle_cfg, guardedToggle_ddr, guardedToggle_port_get h]
    split
    · next ht => exact Bool.eq_false_iff.mp (hends h ht)
    · next ht => exact ht
  · exact guardedToggle_port_of_ge h

/-- A change of the parameters that keeps the guard's answer keeps the command (rule R141). -/
theorem guardedToggle_congr_cfg (h : idx.toNat < 8) {c : Config}
    (ht : test c (s.ddr.get p) (s.port.get p) (mask idx) = test s.cfg (s.ddr.get p) (s.port.get p) (mask idx)) :
    guardedToggle test p idx { s with cfg := c } = { guardedToggle test p idx s with cfg := c } := by
  cases hs : test s.cfg (s.ddr.get p) (s.port.get p) (mask idx) with
  | false => rw [guardedToggle_of_not h hs, guardedToggle_of_not h (ht.trans hs)]
  | true => rw [guardedToggle_of_test h hs, guardedToggle_of_test h (ht.trans hs)]

end GuardedToggle

/-! ## `HIGH` and `LOW` -/

/-- A toggle by `HIGH` ends the guard of `HIGH`, under every setting (rule R139). -/
theorem highToggles_xor_mask {idx : Byte} (h : idx.toNat < 8) {c : Config} {dv pv : Byte}
    (ht : highToggles c dv pv (mask idx) = true) : highToggles c dv (pv ^^^ mask idx) (mask idx) = false := by
  obtain ⟨-, hlow⟩ := (highToggles_iff _ _ _ _).mp ht
  rw [highToggles, isLow_xor_mask_of_isLow h hlow, Bool.and_false]

/-- Under `bit` guards `LOW` toggles exactly an output that is high (rule R137). -/
theorem lowToggles_bit {idx : Byte} (h : idx.toNat < 8) {c : Config} (hd : c.guardDdr = .bit) (hp : c.guardPort = .bit)
    (dv pv : Byte) :
    lowToggles c dv pv (mask idx) = (dv.getLsbD idx.toNat && pv.getLsbD idx.toNat) := by
  rw [lowToggles, isHigh, hd, hp, dirOut_bit h, isLow_bit h, Bool.not_not]

/-- Settles O28: the cases of `guardedToggle`; under `bit` guards an output that was low is toggled and one that was
high stays. -/
theorem highTogglesALowOutput : Obligations.HighTogglesALowOutput := by
  refine fun p idx s hs => ⟨decode_encode (i := .high p idx) rfl,
    fun h => (exec_high hs).trans (congrArg _ (guardedToggle_of_ge _ _ _ h)), fun h => ?_⟩
  rintro _ _ rfl rfl
  refine ⟨fun hdir hlow => ?_, fun hno => ?_, fun hgd hgp hbit => ⟨_, exec_high hs, ?_⟩⟩
  · obtain ⟨P, heq, heffect⟩ := guardedToggle_effect h ((highToggles_iff _ _ _ _).mpr ⟨hdir, hlow⟩)
    exact ⟨P, (exec_high hs).trans (congrArg _ heq), heffect⟩
  · have ht := Bool.eq_false_iff.mpr (mt (highToggles_iff _ _ _ _).mp hno)
    exact (exec_high hs).trans (congrArg _ (guardedToggle_of_not h ht))
  · rw [guardedToggle_port_get h, highToggles, hgd, hgp, dirOut_bit h, isLow_bit h, hbit]
    cases hpv : (s.port.get p).getLsbD idx.toNat <;> simp [xor_mask_getLsbD h, hpv]

/-- Settles O29: the cases of `guardedToggle`; under `bit` guards an output that was high is toggled and one that was
low stays. -/
theorem lowTogglesAHighOutput : Obligations.LowTogglesAHighOutput := by
  refine fun p idx s hs => ⟨decode_encode (i := .low p idx) rfl,
    fun h => (exec_low hs).trans (congrArg _ (guardedToggle_of_ge _ _ _ h)), fun h => ?_⟩
  rintro _ _ rfl rfl
  refine ⟨fun hdir hhigh => ?_, fun hno => ?_, fun hgd hgp => ⟨_, _, exec_low hs, exec_low (by simpa using hs),
    ?_, ?_, fun hbit => ?_⟩⟩
  · obtain ⟨P, heq, heffect⟩ := guardedToggle_effect h ((lowToggles_iff _ _ _ _).mpr ⟨hdir, hhigh⟩)
    exact ⟨P, (exec_low hs).trans (congrArg _ heq), heffect⟩
  · have ht := Bool.eq_false_iff.mpr (mt (lowToggles_iff _ _ _ _).mp hno)
    exact (exec_low hs).trans (congrArg _ (guardedToggle_of_not h ht))
  · refine guardedToggle_twice_port fun _ ht => ?_
    rw [lowToggles_bit h hgd hgp] at ht ⊢
    obtain ⟨-, hpv⟩ := Bool.and_eq_true_iff.mp ht
    simp [xor_mask_getLsbD h, hpv]
  · rw [guardedToggle_port_ne_iff h, lowToggles_bit h hgd hgp, Bool.and_eq_true]
  · rw [guardedToggle_port_get h, lowToggles_bit h hgd hgp, hbit]
    cases hpv : (s.port.get p).getLsbD idx.toNat <;> simp [xor_mask_getLsbD h, hpv]

/-- Settles O30: `HIGH` ends its own guard. -/
theorem highIsIdempotent : Obligations.HighIsIdempotent := fun _ _ _ hs =>
  ⟨_, _, exec_high hs, exec_high (by simpa using hs), guardedToggle_ddr,
    guardedToggle_twice_port fun h => highToggles_xor_mask h⟩

/-- `HIGH` then `LOW`: a low output is toggled twice, a high one once, by the `LOW` (rule R140). -/
theorem port_get_low_after_high {p : PortName} {idx : Byte} (h : idx.toNat < 8) (s : State) :
    (guardedToggle lowToggles p idx (guardedToggle highToggles p idx s)).port.get p =
      if lowToggles s.cfg (s.ddr.get p) (s.port.get p) (mask idx) then s.port.get p ^^^ mask idx
      else s.port.get p := by
  rw [guardedToggle_port_get h, guardedToggle_port_get h, guardedToggle_cfg, guardedToggle_ddr]
  cases hdir : dirOut s.cfg.guardDdr (s.ddr.get p) (mask idx) with
  | false => simp [highToggles, lowToggles, hdir]
  | true =>
    cases hlow : isLow s.cfg.guardPort (s.port.get p) (mask idx) with
    | false => simp [highToggles, lowToggles, isHigh, hdir, hlow]
    | true => simp [highToggles, lowToggles, isHigh, hdir, hlow, isLow_xor_mask_of_isLow h hlow]

/-- Settles O31: `port_get_low_after_high`, with `lowToggles` as its two guards. -/
theorem lowAfterHighRestoresExactlyWhen : Obligations.LowAfterHighRestoresExactlyWhen := by
  refine fun p idx s hs => ⟨_, _, exec_high hs, exec_low (by simpa using hs), fun h => ?_, fun h => ?_⟩
  · rw [guardedToggle_port_of_ge h, guardedToggle_port_of_ge h]
  · rw [← lowToggles_iff, port_get_low_after_high h]
    refine ⟨?_, fun hdir hhigh => if_pos ((lowToggles_iff _ _ _ _).mpr ⟨hdir, hhigh⟩)⟩
    split
    · next ht => simpa [ht] using xor_mask_ne_self h (s.port.get p)
    · next ht => simp [ht]

/-- Settles O32: the two bytes are 0 or the mask, where the guards do not depend on the setting. -/
theorem guardsAgreeOnSinglePinPorts : Obligations.GuardsAgreeOnSinglePinPorts := by
  intro p idx s hs h hbits
  have hd := eq_zero_or_eq_mask h fun j hj hne => (hbits j hj hne).1
  have hq := eq_zero_or_eq_mask h fun j hj hne => (hbits j hj hne).2
  refine ⟨?_, fun hbit => ⟨_, _, exec_high hs, exec_low hs, ?_⟩⟩
  · rintro g g' _ rfl
    refine ⟨_, _, _, _, exec_high hs, exec_high hs, exec_low hs, exec_low hs, guardedToggle_congr_cfg h ?_,
      guardedToggle_congr_cfg h ?_⟩
    · rw [highToggles, highToggles, dirOut_eq_of_single_pin h hd g s.cfg.guardDdr,
        isLow_eq_of_single_pin h hq g' s.cfg.guardPort]
    · rw [lowToggles, lowToggles, isHigh, isHigh, dirOut_eq_of_single_pin h hd g s.cfg.guardDdr,
        isLow_eq_of_single_pin h hq g' s.cfg.guardPort]
  · have hmask : s.ddr.get p = mask idx := hd.resolve_left fun hzero => by simp [hzero] at hbit
    rw [guardedToggle_port_get h, guardedToggle_port_get h, ← mask]
    rcases hq with hq | hq <;> simp [highToggles, lowToggles, isHigh, hmask, hq, h]

/-- Settles O33: the toggle write and the change of `port` happen exactly when the guard holds. -/
theorem highLowDecisionTable : Obligations.HighLowDecisionTable := by
  rintro p idx s _ _ hs h rfl rfl
  refine ⟨_, _, exec_high hs, exec_low hs, ?_⟩
  rw [← highToggles_iff, ← isHigh_iff, ← lowToggles_iff]
  exact ⟨wr_mem_guardedToggle_iff h, wr_mem_guardedToggle_iff h, guardedToggle_port_ne_iff h,
    guardedToggle_port_ne_iff h⟩

/-! ## The frames of the pin commands -/

/-- Parameters, program, collaborators and draws: only the generators and a read of a PINx touch any of them (rules R28,
R30, R57, R183). -/
theorem exec_surroundings {i : Instr} {s t : State} (hgenm : i ≠ .genm) (hgena : i ≠ .gena)
    (hrd : ∀ p, i ≠ .rd (base p)) (h : exec i s = .next t) :
    t.cfg = s.cfg ∧ t.prog = s.prog ∧ t.collabTrace = s.collabTrace ∧ t.sensorIn = s.sensorIn ∧
      t.draws = s.draws := by
  obtain ⟨hcfg, hprog⟩ := exec_cfg_prog h
  obtain ⟨hcollab, hsensor⟩ := Prod.mk.inj (exec_collaborators hgenm hgena h)
  exact ⟨hcfg, hprog, hcollab, hsensor, exec_draws hgena hgenm hrd h⟩

/-- A command is answered with the latched cause or runs its body (rules R112, R207). -/
theorem execute_cases {body : State → State} {s t : State} (h : execute body s = .next t) :
    (∃ c, t = answerLatched c s) ∨ t = body s := by
  unfold execute at h
  split at h
  · next c _ => exact .inl ⟨c, (Host.Outcome.next.inj h).symm⟩
  · exact .inr (Host.Outcome.next.inj h).symm

/-- A command with a constraint on its operands keeps the banks, by a latched answer or by fault entry, or meets the
constraint and runs its body (rules R88, R206, R207). -/
theorem execute_legalOnly_cases {ok : Bool} {body : State → State} {s t : State}
    (h : execute (legalOnly ok body) s = .next t) :
    (t.ddr = s.ddr ∧ t.port = s.port) ∨ (ok = true ∧ t = body s) := by
  rcases execute_cases h with ⟨c, rfl⟩ | rfl
  · exact .inl ⟨rfl, rfl⟩
  · cases ok with
    | false => exact .inl ⟨rfl, rfl⟩
    | true => exact .inr ⟨rfl, rfl⟩

/-- A direction command leaves the banks but for one byte of `ddr` (rule R132). -/
theorem exec_mode_banks {p : PortName} {idx : Byte} {m : IOMode} {s t : State}
    (h : exec (.mode p idx m) s = .next t) : ∃ v, t.ddr = s.ddr.set p v ∧ t.port = s.port := by
  rcases execute_legalOnly_cases h with ⟨hddr, hport⟩ | ⟨-, rfl⟩
  · exact ⟨s.ddr.get p, by rw [hddr, Bank.set_get], hport⟩
  · rw [setMode_eq]
    exact ⟨_, rfl, rfl⟩

/-- Settles O51: `OUT` and `IN` run as `MODE`; the banks are those of a write of DDRx. -/
theorem directionCommandsFrame : Obligations.DirectionCommandsFrame := by
  intro i p idx s t hi h
  obtain ⟨m, hmode⟩ : ∃ m, exec (.mode p idx m) s = .next t := by
    rcases hi with ⟨m, rfl⟩ | rfl | rfl
    · exact ⟨m, h⟩
    · exact ⟨.output, h⟩
    · exact ⟨.input, h⟩
  obtain ⟨v, hddr, hport⟩ := exec_mode_banks hmode
  obtain ⟨hcfg, hprog, hcollab, hsensor, hdraws⟩ := exec_surroundings (by simp) (by simp) (by simp) hmode
  refine ⟨fun a ha => ?_, hport, fun q hq => ?_, hcfg, hprog, hcollab, hsensor, hdraws,
    fun hidx => exec_fatal_of_wf (i := .mode p idx m) (decide_eq_true hidx) (by simp) (by simp) hmode⟩
  · calc t.peek a = (memWrite (ddrr p) v s).peek a := peek_eq_of_banks (s := memWrite (ddrr p) v s) hddr hport a
      _ = s.peek a := peek_memWrite_of_ddr rfl ha v s
  · rw [hddr, Bank.get_set_ne _ _ hq]

/-- A byte that differs from `q` at most in the bit of the pin. -/
def AgreesOffPin (idx v q : Byte) : Prop := ∀ j, j ≠ idx.toNat → v.getLsbD j = q.getLsbD j

theorem agreesOffPin_xor_mask {idx : Byte} (h : idx.toNat < 8) (q : Byte) : AgreesOffPin idx (q ^^^ mask idx) q := by
  intro j hj
  rw [xor_mask_getLsbD h, if_neg hj]

/-- What `TGL`, `HIGH` and `LOW` leave of the banks: all but one bit of `port` (rules R135, R136, R137). -/
def KeepsBanksOffPin (p : PortName) (idx : Byte) (s t : State) : Prop :=
  t.ddr = s.ddr ∧ ∃ v, t.port = s.port.set p v ∧ AgreesOffPin idx v (s.port.get p)

theorem keepsBanksOffPin_of_eq {p : PortName} {idx : Byte} {s t : State} (hddr : t.ddr = s.ddr)
    (hport : t.port = s.port) : KeepsBanksOffPin p idx s t :=
  ⟨hddr, s.port.get p, by rw [hport, Bank.set_get], fun _ _ => rfl⟩

theorem guardedToggle_keepsBanksOffPin (test : Config → Byte → Byte → Byte → Bool) (p : PortName) (idx : Byte)
    (s : State) : KeepsBanksOffPin p idx s (guardedToggle test p idx s) := by
  rcases Nat.lt_or_ge idx.toNat 8 with h | h
  · by_cases ht : test s.cfg (s.ddr.get p) (s.port.get p) (mask idx) = true
    · exact ⟨guardedToggle_ddr, _, by rw [guardedToggle_port h, if_pos ht], agreesOffPin_xor_mask h _⟩
    · exact keepsBanksOffPin_of_eq guardedToggle_ddr (by rw [guardedToggle_port h, if_neg ht])
  · exact keepsBanksOffPin_of_eq guardedToggle_ddr (guardedToggle_port_of_ge h)

theorem execute_guardedToggle_keepsBanksOffPin {test : Config → Byte → Byte → Byte → Bool} {p : PortName}
    {idx : Byte} {s t : State} (h : execute (guardedToggle test p idx) s = .next t) : KeepsBanksOffPin p idx s t := by
  rcases execute_cases h with ⟨c, rfl⟩ | rfl
  · exact keepsBanksOffPin_of_eq rfl rfl
  · exact guardedToggle_keepsBanksOffPin test p idx s

theorem exec_tgl_keepsBanksOffPin {p : PortName} {idx : Byte} {s t : State} (h : exec (.tgl p idx) s = .next t) :
    KeepsBanksOffPin p idx s t := by
  rcases execute_legalOnly_cases h with ⟨hddr, hport⟩ | ⟨hidx, rfl⟩
  · exact keepsBanksOffPin_of_eq hddr hport
  · exact ⟨rfl, _, rfl, agreesOffPin_xor_mask (of_decide_eq_true hidx) _⟩

/-- Settles O52: the banks are those of a write of PORTx that keeps every bit but the pin's. -/
theorem stateCommandsFrame : Obligations.StateCommandsFrame := by
  intro i p idx s t hi h
  obtain ⟨hddr, v, hport, hbits⟩ : KeepsBanksOffPin p idx s t := by
    rcases hi with rfl | rfl | rfl
    · exact exec_tgl_keepsBanksOffPin h
    · exact execute_guardedToggle_keepsBanksOffPin h
    · exact execute_guardedToggle_keepsBanksOffPin h
  have hgenm : i ≠ .genm := by rintro rfl; simp at hi
  have hgena : i ≠ .gena := by rintro rfl; simp at hi
  have hrd : ∀ o, i ≠ .rd (base o) := by rintro o rfl; simp at hi
  obtain ⟨hcfg, hprog, hcollab, hsensor, hdraws⟩ := exec_surroundings hgenm hgena hrd h
  refine ⟨fun a hpin ha => ?_, hddr, fun q hq => ?_, fun j hj => ?_, hcfg, hprog, hcollab, hsensor, hdraws,
    fun hidx => exec_fatal_of_wf ?_ hgenm hgena h⟩
  · calc t.peek a = (memWrite (portr p) v s).peek a := peek_eq_of_banks (s := memWrite (portr p) v s) hddr hport a
      _ = s.peek a := peek_memWrite_of_ne_ddr (r := portr p) (by simp [portr]) hpin ha v s
  · rw [hport, Bank.get_set_ne _ _ hq]
  · rw [hport, Bank.get_set_self]
    exact hbits j hj
  · rcases hi with rfl | rfl | rfl
    · exact decide_eq_true (hidx rfl)
    · rfl
    · rfl

end Sys2Proof.Machine

/-! PROOFS. The mixer commands: `ROT` (O36), `XOR` (O37), `XSH` (O38), `PSHL` (O39), `PSHR` (O40), and the properties the
source states of their functions (O41). -/

namespace Sys2Proof

/-- The word of `ROT` with a count outside 1 to 7 is reserved (rule R88 (e)). -/
theorem decode_rot_reserved {b n : Byte} (h : n.toNat = 0 ∨ 8 ≤ n.toNat) :
    decode (packWord 0x20#8 b n 0#8) = .reserved .rotateCount := by
  have hcount : ¬ (1 ≤ n.toNat ∧ n.toNat ≤ 7) := by omega
  rw [decode_packWord]
  exact if_neg (by simpa using hcount)

end Sys2Proof

namespace Sys2Proof.Machine

/-! ## The rotate -/

/-- The formula of rule R161 is the rotate to the right. -/
theorem shifts_eq_rotateRight (b : Byte) {k : Nat} (h : k < 8) : (b >>> k) ||| (b <<< (8 - k)) = b.rotateRight k :=
  (BitVec.rotateRight_eq_rotateRightAux_of_lt h).symm

theorem rotate_eq_rotateRight (b : Byte) {n : Byte} (h1 : 1 ≤ n.toNat) (h7 : n.toNat ≤ 7) :
    rotate b n = some (b.rotateRight n.toNat) := by
  rw [rotate_of_count h1 h7, shifts_eq_rotateRight b (by omega)]

/-- The bits of a rotated byte (rule R161). -/
theorem rotateRight_getLsbD (b : Byte) (k : Nat) {j : Nat} (hj : j < 8) :
    (b.rotateRight k).getLsbD j = b.getLsbD ((j + k) % 8) := by
  rw [BitVec.getLsbD_rotateRight]
  by_cases hlow : j < 8 - k % 8
  · rw [show (j + k) % 8 = k % 8 + j by omega]
    simp [hlow]
  · rw [show (j + k) % 8 = j - (8 - k % 8) by omega]
    simp [hlow, hj]

/-- The two parts of the formula of rule R161 never overlap: one is below bit `8 - k` and the other is not. -/
theorem shifts_disjoint (b : Byte) {k : Nat} : (b >>> k) &&& (b <<< (8 - k)) = 0#8 := by
  refine BitVec.eq_of_getLsbD_eq fun j _ => ?_
  by_cases hlow : j < 8 - k
  · simp [hlow]
  · simp [BitVec.getLsbD_of_ge b (k + j) (by omega)]

/-- Rotates whose counts add up to 8 undo each other (rule R161 (c)). -/
theorem rotateRight_rotateRight_of_add_eq (b : Byte) {k m : Nat} (h : k + m = 8) :
    (b.rotateRight k).rotateRight m = b := by
  refine BitVec.eq_of_getLsbD_eq fun j hj => ?_
  rw [rotateRight_getLsbD _ _ hj, rotateRight_getLsbD _ _ (Nat.mod_lt _ (by decide))]
  congr 1
  omega

/-- For each count the rotate is a bijection of bytes (rules R161 (c), R166 (b)). -/
theorem rotateRight_bijective {k : Nat} (h : k ≤ 8) : Function.Bijective fun b : Byte => b.rotateRight k :=
  Function.bijective_iff_has_inverse.mpr ⟨fun b => b.rotateRight (8 - k),
    fun b => rotateRight_rotateRight_of_add_eq b (by omega), fun b => rotateRight_rotateRight_of_add_eq b (by omega)⟩

/-- A rotate by 4 swaps the nibbles (rule R161 (d)). -/
theorem rotateRight_four (b : Byte) : b.rotateRight 4 = (b.extractLsb' 0 4 ++ b.extractLsb' 4 4 : BitVec (4 + 4)) := by
  refine BitVec.eq_of_getLsbD_eq fun j hj => ?_
  rw [rotateRight_getLsbD b 4 hj, BitVec.getLsbD_append]
  by_cases hlow : j < 4
  · rw [show (j + 4) % 8 = 4 + j by omega]
    simp [hlow]
  · rw [show (j + 4) % 8 = j - 4 by omega]
    simp [hlow, show j - 4 < 4 by omega]

/-- A byte of equal bits is the same after every rotate (rule R161 (b)). -/
theorem rotateRight_of_bits_eq {b : Byte} {x : Bool} (h : ∀ j, j < 8 → b.getLsbD j = x) (k : Nat) :
    b.rotateRight k = b := by
  refine BitVec.eq_of_getLsbD_eq fun j hj => ?_
  rw [rotateRight_getLsbD b k hj, h _ (Nat.mod_lt _ (by decide)), h j hj]

/-- The complement of the count, for the rotate back (rule R161 (c)). -/
theorem toNat_eight_sub {n : Byte} (h : n.toNat ≤ 8) : (8#8 - n).toNat = 8 - n.toNat := by
  bv_omega

/-- Settles O36: the formula is `BitVec.rotateRight`, whose facts stand above; any other count is a reserved word. -/
theorem rotRotatesRight : Obligations.RotRotatesRight := by
  refine ⟨fun b n s hs h1 h7 => ?_, fun b n s hs hn => ?_⟩
  · have hformula := shifts_eq_rotateRight b (show n.toNat < 8 by omega)
    have hback := toNat_eight_sub (n := n) (by omega)
    refine ⟨decode_encode (i := .rot b n) (by simp [Instr.wf, h1, h7]), b.rotateRight n.toNat, ?_,
      rotate_eq_rotateRight b h1 h7, hformula.symm, shifts_disjoint b, fun j hj => rotateRight_getLsbD b _ hj,
      ?_, ?_, ?_, ?_⟩
    · rw [← hformula]
      exact exec_rot hs h1 h7
    · rintro rfl
      exact rotateRight_of_bits_eq (x := false) (by decide) _
    · rintro rfl
      exact rotateRight_of_bits_eq (x := true) (by decide) _
    · rw [rotate_eq_rotateRight _ (by omega) (by omega), hback, rotateRight_rotateRight_of_add_eq b (by omega)]
    · rintro rfl
      exact rotateRight_four b
  · exact ⟨rotate_eq_none.mpr (by omega), present_reserved hs (decode_rot_reserved hn)⟩

/-! ## The exclusive-or -/

/-- Settles O37: `xorBytes` is the exclusive-or, and `and` is below `or`. -/
theorem xorAnswersExclusiveOr : Obligations.XorAnswersExclusiveOr := by
  intro a b s hs
  refine ⟨decode_encode (i := .xor a b) rfl, ?_, xorBytes_eq a b, ?_⟩
  · rw [← xorBytes_eq]
    exact exec_xor hs
  · rw [BitVec.toNat_and, BitVec.toNat_or]
    exact Nat.and_le_left.trans Nat.left_le_or

/-! ## The xor-shift -/

/-- The bits of `xorShift`, each term a shift of the same input (rule R163). -/
theorem xorShift_getLsbD (a : Byte) {j : Nat} (hj : j < 8) : (xorShift a).getLsbD j =
    (a.getLsbD j ^^ a.getLsbD (j + 3) ^^ (decide (5 ≤ j) && a.getLsbD (j - 5)) ^^ a.getLsbD (j + 4)) := by
  simp [xorShift, hj, Nat.add_comm j, ← decide_not, -BitVec.getLsbD_eq_getElem]

/-- `xorShift` is linear, as shifts are (rule R163 (b)). -/
theorem xorShift_xor (a b : Byte) : xorShift (a ^^^ b) = xorShift a ^^^ xorShift b := by
  simp only [xorShift, BitVec.shiftLeft_xor_distrib, BitVec.ushiftRight_xor_distrib]
  ac_rfl

/-- The kernel of `xorShift` (rule R163 (c)). -/
theorem xorShift_eq_zero_iff : ∀ a : Byte, xorShift a = 0x00#8 ↔ a = 0x00#8 ∨ a = 0x6B#8 := by decide

/-- A linear map takes equal values where the difference is in its kernel (rule R163 (c)). -/
theorem xorShift_eq_iff (a b : Byte) : xorShift a = xorShift b ↔ a = b ∨ a = b ^^^ 0x6B#8 :=
  calc xorShift a = xorShift b
    _ ↔ xorShift (a ^^^ b) = 0#8 := by rw [xorShift_xor, BitVec.xor_eq_zero_iff]
    _ ↔ a ^^^ b = 0#8 ∨ a ^^^ b = 0x6B#8 := xorShift_eq_zero_iff _
    _ ↔ a = b ∨ a = b ^^^ 0x6B#8 := or_congr BitVec.xor_eq_zero_iff (by
      rw [← BitVec.xor_left_inj b, BitVec.xor_assoc, BitVec.xor_self, BitVec.xor_zero, BitVec.xor_comm b])

/-- Settles O38: the bits by the formula, and the two-to-one law by linearity and the kernel. -/
theorem xshDiffusesAndIsTwoToOne : Obligations.XshDiffusesAndIsTwoToOne :=
  ⟨fun a _ hs => ⟨decode_encode (i := .xsh a) rfl, xorShift a, exec_xsh hs, rfl, fun _ hj => xorShift_getLsbD a hj⟩,
    xorShift_xor, xorShift_eq_iff, (xorShift_eq_zero_iff _).mpr (.inl rfl)⟩

/-! ## The pushes -/

/-- Both pushes have this shape, with a shift of the value as `x`. -/
theorem xor_xor_xor_cancel_left (x y z : Byte) : (x ^^^ y ^^^ z) ^^^ x = y ^^^ z := by
  rw [BitVec.xor_assoc x, BitVec.xor_comm x, BitVec.xor_assoc, BitVec.xor_self, BitVec.xor_zero]

/-- The source's identity of `pushLeft` (rule R164). -/
theorem pushLeft_xor_shift (val change : Byte) : pushLeft val change ^^^ (val <<< 1) = change ^^^ val :=
  xor_xor_xor_cancel_left _ _ _

/-- The source's identity of `pushRight` (rule R165). -/
theorem pushRight_xor_shift (val change : Byte) : pushRight val change ^^^ (val >>> 1) = (change <<< 7) ^^^ val :=
  xor_xor_xor_cancel_left _ _ _

theorem pushLeft_getLsbD_zero (val change : Byte) :
    (pushLeft val change).getLsbD 0 = (change.getLsbD 0 ^^ val.getLsbD 0) := by
  simp [pushLeft]

theorem pushLeft_getLsbD_of_pos (val change : Byte) {j : Nat} (h1 : 1 ≤ j) (hj : j < 8) :
    (pushLeft val change).getLsbD j = (val.getLsbD (j - 1) ^^ change.getLsbD j ^^ val.getLsbD j) := by
  simp [pushLeft, hj, show j ≠ 0 by omega, -BitVec.getLsbD_eq_getElem]

theorem pushRight_getLsbD_seven (val change : Byte) :
    (pushRight val change).getLsbD 7 = (change.getLsbD 0 ^^ val.getLsbD 7) := by
  simp [pushRight]

theorem pushRight_getLsbD_of_lt (val change : Byte) {j : Nat} (hj : j < 7) :
    (pushRight val change).getLsbD j = (val.getLsbD (j + 1) ^^ val.getLsbD j) := by
  simp [pushRight, hj, Nat.add_comm j]

/-- A shift left by 7 keeps only bit 0, at bit 7 (rule R165). -/
theorem shiftLeft_seven (v : Byte) : v <<< 7 = if v.getLsbD 0 then 0x80#8 else 0x00#8 := by
  revert v; decide

/-- Settles O39: the formula, its bits and the identity of `pushLeft`. -/
theorem pshlPushesLeft : Obligations.PshlPushesLeft := fun val change _ hs =>
  ⟨decode_encode (i := .pshl val change) rfl, pushLeft val change, exec_pshl hs, rfl,
    pushLeft_getLsbD_zero val change, fun _ => pushLeft_getLsbD_of_pos val change, pushLeft_xor_shift val change⟩

/-- Settles O40: the formula, its bits and the identity of `pushRight`. -/
theorem pshrPushesRight : Obligations.PshrPushesRight := fun val change _ hs =>
  ⟨decode_encode (i := .pshr val change) rfl, pushRight val change, exec_pshr hs, rfl,
    pushRight_getLsbD_seven val change, fun _ => pushRight_getLsbD_of_lt val change, shiftLeft_seven change,
    pushRight_xor_shift val change⟩

/-! ## The properties the source states -/

/-- Settles O41: `xorBytes` is the exclusive-or, a rotate is undone by the opposite one, and the pushes by their
identities. -/
theorem mixerFunctionProperties : Obligations.MixerFunctionProperties := by
  refine ⟨fun a b => ?_, fun n h1 h7 => ?_, fun v c => ?_⟩
  · simp only [xorBytes_eq]
    exact ⟨BitVec.xor_comm a b, BitVec.xor_self, trivial⟩
  · exact ⟨_, fun b => rotate_eq_rotateRight b h1 h7, rotateRight_bijective (by omega)⟩
  · simp only [xorBytes_eq]
    exact ⟨pushLeft_xor_shift v c, pushRight_xor_shift v c⟩

end Sys2Proof.Machine

/-! PROOFS. The generator commands: the mode check (O43), `GENM` (O44, O47) and `GENA` (O48), and the functions behind
`GENM`, the motion mix (O45) and the low byte of a sensor word (O46). -/

namespace Sys2Proof.Machine

/-! ## Sensor words -/

/-- The byte taken from a sensor word does not depend on the width `W_SENSOR` (rule R183). -/
@[simp] theorem sensorByte_eq_low8 (cfg : Config) (z : Int) : sensorByte cfg z = low8 z :=
  low8_sensorWord cfg.sensorExtraBits z

/-- The low byte of an integer is its remainder by 256, also where it is negative (decision D19). -/
theorem low8_toNat (z : Int) : ((low8 z).toNat : Int) = z % 256 := by
  rw [low8, BitVec.toNat_ofInt]
  omega

/-- Every byte is the low byte of some integer (rule R183). -/
@[simp] theorem low8_natCast_toNat (b : Byte) : low8 b.toNat = b := by
  simp [low8]

/-- The motion path in terms of the low bytes of the reading (rule R181). -/
theorem motionResult_eq (cfg : Config) (x : SensorReading) : motionResult cfg x =
    mixMotion (low8 x.accel0) (low8 x.accel1) (low8 x.accel2) (low8 x.gyro0) (low8 x.gyro1) (low8 x.gyro2) := by
  simp [motionResult]

/-- Settles O46: the width drops out (`sensorByte_eq_low8`), and six bytes are the low bytes of themselves as numbers. -/
theorem sensorWordsCountByTheirLowByte : Obligations.SensorWordsCountByTheirLowByte := by
  refine ⟨fun cfg z => ?_, fun cfg a b c d e f => ⟨⟨a.toNat, b.toNat, c.toNat, d.toNat, e.toNat, f.toNat⟩, ?_⟩⟩
  · rw [sensorByte_eq_low8, low8_toNat]
  · simp [motionResult_eq]

/-! ## The motion mix -/

theorem xor_and_distrib (x y m : Byte) : (x ^^^ y) &&& m = (x &&& m) ^^^ (y &&& m) := by
  ext j hj
  simp [Bool.and_xor_distrib_right]

/-- The bits of one sensor are linear in its three bytes, as masks and shifts are (rule R182). -/
theorem motionBits_xor (x y z x' y' z' : Byte) :
    motionBits (x ^^^ x') (y ^^^ y') (z ^^^ z') = motionBits x y z ^^^ motionBits x' y' z' := by
  simp only [motionBits, xor_and_distrib, BitVec.shiftLeft_xor_distrib, BitVec.ushiftRight_xor_distrib]
  ac_rfl

/-- The motion mix is linear in its six bytes, since its parts are (rule R182). -/
theorem mixMotion_xor (a b c d e f a' b' c' d' e' f' : Byte) :
    mixMotion (a ^^^ a') (b ^^^ b') (c ^^^ c') (d ^^^ d') (e ^^^ e') (f ^^^ f') =
      mixMotion a b c d e f ^^^ mixMotion a' b' c' d' e' f' := by
  simp only [mixMotion, motionBits_xor, xorShift_xor]
  ac_rfl

/-- Settles O45: the formula of rule R182 up to the grouping of the exclusive-or, and linearity by `mixMotion_xor`. -/
theorem motionMixFormulaAndLinearity : Obligations.MotionMixFormulaAndLinearity := by
  refine ⟨fun a b c d e f bits1 bits2 h1 h2 => ?_, mixMotion_xor, by decide⟩
  have hbits (x y z : Byte) :
      motionBits x y z = ((x &&& 0x03#8) <<< 6) ^^^ ((z <<< 4) ^^^ ((y <<< 2) ^^^ (x ^^^ (z >>> 2)))) := by
    simp only [motionBits, BitVec.xor_assoc]
  rw [mixMotion, hbits, hbits, ← h1, ← h2, xorShift]

/-! ## The commands -/

theorem nextReading_of_cons {s : State} {x : SensorReading} {rest : List SensorReading}
    (h : s.sensorIn = x :: rest) : nextReading s = x := by
  simp [nextReading, h]

theorem nextReading_of_nil {s : State} (h : s.sensorIn = []) : nextReading s = freeReading s := by
  simp [nextReading, h]

/-- A reading is taken from the queue, or six free words are drawn where the queue is empty (log entry 8). -/
theorem dropReading_eq (s : State) : dropReading s = { s with
    sensorIn := s.sensorIn.tail
    draws := if s.sensorIn = [] then s.draws + 6 else s.draws } := by
  cases s with
  | mk _ _ _ _ _ _ _ _ _ sensorIn _ => cases sensorIn <;> rfl

/-- The five events of `GENM` as one piece of the collaborator trace (rule R181). -/
theorem emitMotionSession_eq (s : State) : emitMotionSession s = { s with
    collabTrace := s.collabTrace ++ [.sensorBegin s.cfg.dpsScale s.cfg.gRange, .sensorReadGyro, .delay 1000,
      .sensorReadAccel, .delay 1000] } := by
  simp [emitMotionSession, State.emit]

/-- The response of `GENM` to a supplied reading (rules R181, R183). -/
theorem exec_genm_responses_of_cons {s : State} (h : s.fatal = none) (hm : s.cfg.genMode = .motion)
    {x : SensorReading} {rest : List SensorReading} (hx : s.sensorIn = x :: rest) :
    ∃ t, exec .genm s = .next t ∧ t.responses = s.responses ++ [.byte (motionResult s.cfg x)] :=
  ⟨_, exec_genm h hm, by rw [complete_responses, (works_genm s).responses, nextReading_of_cons hx]⟩

/-- Settles O43: `inMode` lets the body run in the command's own mode only, and no body latches a cause. -/
theorem generatorModeCheck : Obligations.GeneratorModeCheck := fun s hs =>
  ⟨exec_genm_wrong hs, exec_gena_wrong hs,
    fun hm => ⟨_, exec_genm hs hm, (works_genm s).fatal.trans hs⟩, fun hm => ⟨_, exec_gena hs hm, hs⟩⟩

/-- Settles O44: the session's events, then the reading taken, each as a whole state; the byte is `motionResult_eq`. -/
theorem genmMixesItsReading : Obligations.GenmMixesItsReading := by
  rintro s _ _ _ _ _ _ _ hs hm rfl rfl rfl rfl rfl rfl rfl
  refine ⟨?_, fun y rest hcons => nextReading_of_cons hcons, fun hnil => ?_⟩
  · rw [exec_genm hs hm, dropReading_eq, emitMotionSession_eq, motionResult_eq]
    rfl
  · rw [nextReading_of_nil hnil]
    exact ⟨rfl, rfl⟩

/-- The response of fault entry is no byte (rule R206). -/
theorem raiseFatal_responses_ne_byte (c : Cause) (s : State) (v : Byte) :
    (raiseFatal c s).responses ≠ s.responses ++ [.byte v] := by
  simp [raiseFatal]

/-- Settles O47: fault entry gives no byte, and the two readings have the same low bytes at every width. -/
theorem generatorSourceProperties : Obligations.GeneratorSourceProperties := by
  refine fun s hs => ⟨fun hm => ⟨_, exec_gena_wrong hs (by simp [hm]), rfl, raiseFatal_responses_ne_byte _ s⟩,
    fun hm => ⟨_, exec_genm_wrong hs (by simp [hm]), rfl, raiseFatal_responses_ne_byte _ s⟩,
    fun hm rest hx => ?_, fun hm rest hx => ?_⟩
  · have hbyte : motionResult s.cfg ⟨0, 0, 0, 0, 0, 0⟩ = 0#8 := by rw [motionResult_eq]; decide
    exact hbyte ▸ exec_genm_responses_of_cons hs hm hx
  · have hbyte : motionResult s.cfg ⟨1, 0, 0, 0, 0, 0⟩ = 109#8 := by rw [motionResult_eq]; decide
    exact hbyte ▸ exec_genm_responses_of_cons hs hm hx

/-- Settles O48: the byte is the free one of the present count of draws. -/
theorem genaAnswersSomeByte : Obligations.GenaAnswersSomeByte := fun s hs =>
  ⟨decode_encode (i := .gena) rfl, fun hm => ⟨Config.freeByte s.draws, s.draws + 1, exec_gena hs hm⟩,
    fun hm => exec_gena_wrong hs (by simp [hm])⟩

end Sys2Proof.Machine

/-! PROOFS. Faults: exactly when each cause is raised (O8), fault entry (O9), the latched cause and reset (O10), and what
is no fault (O11). -/

namespace Sys2Proof.Machine

/-! ## Raising a cause -/

@[simp] theorem raiseFatal_fatal (c : Cause) (s : State) : (raiseFatal c s).fatal = some c := rfl

/-- A live well-formed command latches the mode mismatch when it is a generator of the other mode, and else leaves the
latch clear (rules R180, R200). -/
theorem LiveAnswer.fatal_of_wf {i : Instr} {s t : State} (h : LiveAnswer i s t) (hwf : i.wf = true)
    (hf : s.fatal = none) :
    (wrongMode i s.cfg ∧ t.fatal = some .modeMismatch) ∨ (¬ wrongMode i s.cfg ∧ t.fatal = none) := by
  rcases h with ⟨hill, -⟩ | ⟨-, hwrong, rfl⟩ | ⟨-, hright, r, u, rfl, -, hw⟩
  · simp [hwf] at hill
  · exact .inl ⟨hwrong, raiseFatal_fatal _ s⟩
  · exact .inr ⟨hright, by rw [complete_fatal, hw.fatal, hf]⟩

/-- Settles O8: a reserved word raises its cause at once; the answer of a decoded command is `LiveAnswer.fatal_of_wf`. -/
theorem onlyReservedWordsAndWrongGeneratorsFault : Obligations.OnlyReservedWordsAndWrongGeneratorsFault := by
  refine ⟨fun s t w hf hw hstep => ?_, rfl, rfl⟩
  rw [step_of_fetch hw] at hstep
  cases hd : decode w with
  | reserved why =>
    rw [present_reserved hf hd] at hstep
    cases hstep
    simp
  | command i =>
    rw [present_command hd] at hstep
    obtain ⟨u, hu, hlive⟩ := exec_live i hf
    obtain rfl : u = t := Host.Outcome.next.inj (hu.symm.trans hstep)
    simp only [Decoded.command.injEq, ← wrongMode_iff]
    rcases hlive.fatal_of_wf (wf_of_decode hd) hf with ⟨hwrong, hfatal⟩ | ⟨hright, hfatal⟩
    · simp [hwrong, hfatal]
    · simp [hright, hfatal]

/-- Settles O9: the three places a fault is raised, each by its law. -/
theorem faultEntryKeepsEverythingElse : Obligations.FaultEntryKeepsEverythingElse := by
  rintro s c hf (⟨rfl, w, why, hw, hd⟩ | ⟨rfl, hw, hm⟩ | ⟨rfl, hw, hm⟩)
  · exact (step_of_fetch hw).trans (present_reserved hf hd)
  · have hd : decode 0x30000000#32 = .command .genm := decode_encode (i := .genm) rfl
    exact (step_of_fetch hw).trans ((present_command hd s).trans (exec_genm_wrong hf (by simp [hm])))
  · have hd : decode 0x31000000#32 = .command .gena := decode_encode (i := .gena) rfl
    exact (step_of_fetch hw).trans ((present_command hd s).trans (exec_gena_wrong hf (by simp [hm])))

/-! ## The latched cause -/

/-- While a cause is latched a step can only answer with it (rule R207; log entry 3). -/
theorem step_latched {s t : State} {c : Cause} (hf : s.fatal = some c) (h : step s = .next t) :
    t = answerLatched c s := by
  rcases step_cases h with ⟨c', hc', rfl⟩ | ⟨hnone, -⟩
  · rw [Option.some.inj (hc'.symm.trans hf)]
  · simp [hf] at hnone

/-- Settles O10: the latched answer of words, commands and steps; the reset event sets the latch to clear. -/
theorem latchedFaultIsAnsweredUntilReset : Obligations.LatchedFaultIsAnsweredUntilReset := fun _ _ hf =>
  ⟨fun w => present_latched w hf, fun i => exec_latched i hf, fun _ => step_latched hf, fun _ _ => rfl⟩

/-! ## What is no fault -/

/-- An input pin fails the direction guard, whole or bit (rule R138). -/
theorem dirOut_of_input {idx dv : Byte} (h : idx.toNat < 8) (hin : dv.getLsbD idx.toNat = false) (g : Guard) :
    dirOut g dv (mask idx) = false := by
  cases g with
  | whole =>
    rw [Bool.eq_false_iff, Ne, dirOut_whole_iff]
    rintro rfl
    simp [mask_getLsbD h] at hin
  | bit => rw [dirOut_bit h, hin]

theorem highToggles_of_input {idx dv : Byte} (h : idx.toNat < 8) (hin : dv.getLsbD idx.toNat = false) (c : Config)
    (pv : Byte) : highToggles c dv pv (mask idx) = false := by
  rw [highToggles, dirOut_of_input h hin, Bool.false_and]

theorem lowToggles_of_input {idx dv : Byte} (h : idx.toNat < 8) (hin : dv.getLsbD idx.toNat = false) (c : Config)
    (pv : Byte) : lowToggles c dv pv (mask idx) = false := by
  rw [lowToggles, dirOut_of_input h hin, Bool.false_and]

/-- Without a toggle, `HIGH` and `LOW` respond and add to the bus trace at most (rules R136, R137, R203). -/
theorem guardedToggle_of_no_toggle {test : Config → Byte → Byte → Byte → Bool} {p : PortName} {idx : Byte} {s : State}
    (h : idx.toNat < 8 → test s.cfg (s.ddr.get p) (s.port.get p) (mask idx) = false) :
    guardedToggle test p idx s = { s with
      responses := s.responses ++ [.done]
      pc := s.pc + 1
      busTrace := (guardedToggle test p idx s).busTrace } := by
  rcases Nat.lt_or_ge idx.toNat 8 with hidx | hidx
  · rw [guardedToggle_of_not hidx (h hidx)]
  · rw [guardedToggle_of_ge test p s hidx]

/-- Settles O11: `PIN`, `ACQ`, `RD` and `WR` by their own statements (O22, O21, O19, O20), `HIGH` and `LOW` as commands
without a toggle. -/
theorem ordinaryOutcomesAreNoFaults : Obligations.OrdinaryOutcomesAreNoFaults := by
  intro s p idx hf
  obtain ⟨-, -, hpin⟩ := pinAnswersAHandleBelowEight p idx s hf
  obtain ⟨hacq, -⟩ := acqAnswersTheBase
  obtain ⟨-, hacq⟩ := hacq p s hf
  refine ⟨hpin, fun hno => ?_, hacq, fun a v ha => ?_⟩
  · have hin : idx.toNat < 8 → (s.ddr.get p).getLsbD idx.toNat = false := fun h => hno.resolve_left (by omega)
    exact ⟨_, _, exec_high hf, exec_low hf,
      guardedToggle_of_no_toggle fun h => highToggles_of_input h (hin h) s.cfg _,
      guardedToggle_of_no_toggle fun h => lowToggles_of_input h (hin h) s.cfg _⟩
  · obtain ⟨-, hrd, -⟩ := rdReadsOneRegister a s hf
    obtain ⟨-, hwr, -⟩ := wrWritesOneRegister a v s hf
    exact ⟨hrd ha, hwr ha⟩

end Sys2Proof.Machine

/-! PROOFS. A direction change and the pad states (O34). -/

namespace Sys2Proof.Machine

/-- `MODE` leaves the output registers alone (rules R132, R238). -/
theorem setMode_port (p : PortName) (idx : Byte) (m : IOMode) (s : State) : (setMode p idx m s).port = s.port := by
  rw [setMode_eq]

/-- `MODE` gives the pin's direction bit the mode (rule R132). -/
theorem setMode_ddr_getLsbD {idx : Byte} {i : Fin 8} (hi : idx.toNat = i.val) (p : PortName) (m : IOMode) (s : State) :
    ((setMode p idx m s).ddr.get p).getLsbD i = decide (m = .output) := by
  have hidx : idx.toNat < 8 := hi ▸ i.isLt
  simp only [setMode_eq, Bank.get_set_self]
  rw [modeByte_getLsbD hidx _ m i.isLt, if_pos hi.symm]

/-- A pad state determines its direction bit and its output bit (rule R25). -/
theorem padOf_inj {d o d' o' : Bool} : padOf d o = padOf d' o' ↔ d = d' ∧ o = o' := by
  revert d o d' o'
  decide

/-- `MODE` takes the pad to the state of the new direction and the stored output bit (rule R238). -/
theorem setMode_pad {p : PortName} {idx : Byte} {i : Fin 8} {s : State} (hi : idx.toNat = i.val) (m : IOMode)
    (d o : Bool) (h : s.pad p i = padOf d o) :
    (setMode p idx m s).pad p i = padOf (decide (m = .output)) o := by
  obtain ⟨-, hout⟩ := padOf_inj.mp h
  rw [State.pad, setMode_ddr_getLsbD hi, setMode_port, hout]

/-- Settles O34: the four transitions are `setMode_pad` at the four pairs of a direction bit and an output bit. -/
theorem modeExposesTheStoredLevel : Obligations.ModeExposesTheStoredLevel := by
  intro p idx i s hs hi
  have hidx : idx.toNat < 8 := hi ▸ i.isLt
  refine ⟨setMode p idx .output s, setMode p idx .input s, exec_mode hs hidx, exec_mode hs hidx,
    setMode_port p idx _ s, setMode_port p idx _ s, ?pullup, ?float, ?high, ?low⟩
  case pullup => exact setMode_pad hi .output false true
  case float => exact setMode_pad hi .output false false
  case high => exact setMode_pad hi .input true true
  case low => exact setMode_pad hi .input true false

end Sys2Proof.Machine
